-- ==== Sys2Proof/Word.lean ====
section
/-! DEFINITION. The word types of the CORE (00_scope.md R10, R12, R13): 64-bit datapath words,
8-bit bytes, 4-bit codes and register ids. -/

namespace Sys2Proof

/-- A datapath value: 64 bits, arithmetic modulo 2^64 (R10, R12). -/
abbrev Word := BitVec 64

/-- The addressable unit (R10, R47). -/
abbrev Byte := BitVec 8

/-- A 4-bit code: a nibble of an instruction byte (R12, R13). -/
abbrev Nibble := BitVec 4

/-- A register id: a 4-bit value (R10, R12, R26). -/
abbrev RegId := BitVec 4

end Sys2Proof
end

