-- ==== Sys2Proof/Config.lean ====
section
/-! DEFINITION. What an implementation fixes (00_scope.md R10, R11), and the free values: results the
spec does not state, each an opaque constant that no proof can evaluate. -/

namespace Sys2Proof.Config

/-- The value `State.reset` gives `MEM_CAPACITY`. DESIGN CHOICE (log entry 1), unsafe for a statement
about `State.reset` alone: R10 and R11 leave the capacity open, so it is a field of `State` that no step
changes and every general statement quantifies over; the value here is the one R11 names for the test
vectors of 95_test_vectors.md. -/
def memCapacity : Nat := 0x1000

/-- The address of the first fetch, the reset value of `F.predPC` (R10, R228). -/
def resetPC : Word := 0

/-- Bytes of a data access (R54). -/
def dataBytes : Nat := 8

/-- The longest instruction, in bytes (R76). -/
def maxInstrBytes : Nat := 10

/-- FREE VALUE (log entry 2): the ALU result for an `alufun` of 4 to 15. R134 gives the four functions 0
to 3 and says that no other reaches the ALU, so only a state that no run reaches applies this. -/
opaque unlistedAlu : Nibble → Word → Word → Word

/-- FREE VALUE (log entry 2): the overflow flag for an `alufun` of 4 to 15 (R135 lists 0 to 3). -/
opaque unlistedOverflow : Nibble → Word → Word → Bool

/-- FREE VALUE (log entry 2): the condition test on (ZF, SF, OF) for a function code of 7 to 15 (R138
lists 0 to 6; R81 makes an instruction with another code invalid). -/
opaque unlistedCond : Nibble → Bool → Bool → Bool → Bool

end Sys2Proof.Config
end

