-- ==== Sys2Proof/Syntax.lean ====
section
/-! DEFINITION. The instruction set: one constructor per row of spec/opcode_table.json, in its order
(30_encoding.md R81), and the instruction codes of R68. -/

namespace Sys2Proof

/-- The twelve instruction codes (R68). Codes 0xC to 0xF name no instruction, and no latch ever holds
one: Fetch replaces the fields of an invalid instruction by those of a no-op (R108). -/
inductive Icode where
  | IHALT | INOP | IRRMOVQ | IIRMOVQ | IRMMOVQ | IMRMOVQ
  | IOPQ | IJXX | ICALL | IRET | IPUSHQ | IPOPQ
deriving DecidableEq, Repr

/-- An instruction with every field of its encoding. `rA`, `rB`: the nibbles of the register-id byte
(R77); `valC`: the constant word (R78). A nibble the instruction does not use (`rA` of irmovq, `rB` of
pushq and popq) is kept, under the name `unused`: R83 accepts any value there, and latch D holds it (R106). -/
inductive Instr where
  | halt
  | nop
  | rrmovq (rA rB : RegId)
  | cmovle (rA rB : RegId)
  | cmovl (rA rB : RegId)
  | cmove (rA rB : RegId)
  | cmovne (rA rB : RegId)
  | cmovge (rA rB : RegId)
  | cmovg (rA rB : RegId)
  | irmovq (unused rB : RegId) (valC : Word)
  | rmmovq (rA rB : RegId) (valC : Word)
  | mrmovq (rA rB : RegId) (valC : Word)
  | addq (rA rB : RegId)
  | subq (rA rB : RegId)
  | andq (rA rB : RegId)
  | xorq (rA rB : RegId)
  | jmp (valC : Word)
  | jle (valC : Word)
  | jl (valC : Word)
  | je (valC : Word)
  | jne (valC : Word)
  | jge (valC : Word)
  | jg (valC : Word)
  | call (valC : Word)
  | ret
  | pushq (rA unused : RegId)
  | popq (rA unused : RegId)
deriving DecidableEq, Repr

end Sys2Proof
end

