-- ==== Sys2Proof/WellFormed.lean ====
section
/-! DEFINITION. Checks on an instruction as syntax (30_encoding.md R73, R74, R83, R86). -/

namespace Sys2Proof

/-- The machine's own check: none. "Register-id fields are not validated. Any nibble value is accepted in
rA and rB" (R83), and the types of `Instr` already hold every other field at its width, so each of the 27
forms is well-formed with every operand. -/
def Instr.wellFormed : Instr → Bool
  | .halt => true
  | .nop => true
  | .rrmovq _ _ => true
  | .cmovle _ _ => true
  | .cmovl _ _ => true
  | .cmove _ _ => true
  | .cmovne _ _ => true
  | .cmovge _ _ => true
  | .cmovg _ _ => true
  | .irmovq _ _ _ => true
  | .rmmovq _ _ _ => true
  | .mrmovq _ _ _ => true
  | .addq _ _ => true
  | .subq _ _ => true
  | .andq _ _ => true
  | .xorq _ _ => true
  | .jmp _ => true
  | .jle _ => true
  | .jl _ => true
  | .je _ => true
  | .jne _ => true
  | .jge _ => true
  | .jg _ => true
  | .call _ => true
  | .ret => true
  | .pushq _ _ => true
  | .popq _ _ => true

/-- The assembler's check: the nibble an instruction does not use is 0xF (R73 for pushq and popq, R74 for
irmovq, R86). The machine executes the other encodings too (R83), so no statement about the machine
assumes this. -/
def Instr.assemblerForm : Instr → Bool
  | .halt => true
  | .nop => true
  | .rrmovq _ _ => true
  | .cmovle _ _ => true
  | .cmovl _ _ => true
  | .cmove _ _ => true
  | .cmovne _ _ => true
  | .cmovge _ _ => true
  | .cmovg _ _ => true
  | .irmovq unused _ _ => unused == 0xF
  | .rmmovq _ _ _ => true
  | .mrmovq _ _ _ => true
  | .addq _ _ => true
  | .subq _ _ => true
  | .andq _ _ => true
  | .xorq _ _ => true
  | .jmp _ => true
  | .jle _ => true
  | .jl _ => true
  | .je _ => true
  | .jne _ => true
  | .jge _ => true
  | .jg _ => true
  | .call _ => true
  | .ret => true
  | .pushq _ unused => unused == 0xF
  | .popq _ unused => unused == 0xF

end Sys2Proof
end

