-- ==== Sys2Proof/Decode.lean ====
section
/-! DEFINITION. The numerals of 10_state.md R26 and 30_encoding.md R68 to R70, the byte-order helpers of
00_scope.md R16, the decoder of R67 to R85 and, after it, the encoder. -/

namespace Sys2Proof

/-! ### Register ids (R25, R26) -/

/-- The sentinel id: "no destination/source" (R25). -/
def RNONE : RegId := 0xF
/-- %rax (R26). -/
def RRAX : RegId := 0x0
/-- %rcx (R26). -/
def RRCX : RegId := 0x1
/-- %rdx (R26). -/
def RRDX : RegId := 0x2
/-- %rbx (R26). -/
def RRBX : RegId := 0x3
/-- %rsp, the stack pointer (R26, R27). -/
def RRSP : RegId := 0x4
/-- %rbp (R26). -/
def RRBP : RegId := 0x5
/-- %rsi (R26). -/
def RRSI : RegId := 0x6
/-- %rdi (R26). -/
def RRDI : RegId := 0x7
/-- %r8 (R26). -/
def RR8 : RegId := 0x8
/-- %r9 (R26). -/
def RR9 : RegId := 0x9
/-- %r10 (R26). -/
def RR10 : RegId := 0xA
/-- %r11 (R26). -/
def RR11 : RegId := 0xB
/-- %r12 (R26). -/
def RR12 : RegId := 0xC
/-- %r13 (R26). -/
def RR13 : RegId := 0xD
/-- %r14 (R26). -/
def RR14 : RegId := 0xE

/-! ### Bytes and byte order -/

/-- Bits 7:4 of a byte (R13). -/
def hiNibble (b : Byte) : Nibble := b.extractLsb' 4 4

/-- Bits 3:0 of a byte (R13). -/
def loNibble (b : Byte) : Nibble := b.extractLsb' 0 4

/-- The byte `hi ++ lo` (R13). -/
def byteOf (hi lo : Nibble) : Byte := hi ++ lo

/-- `v[8k+7:8k]`, the byte of `v` that lies at offset `k` in memory (R16, R52). -/
def wordByte (v : Word) (k : Nat) : Byte := v.extractLsb' (8 * k) 8

/-- The 64-bit value of eight bytes, `b0` at the lowest address: `b7 ++ b6 ++ … ++ b0` (R16, R78). -/
def wordOfBytes (b0 b1 b2 b3 b4 b5 b6 b7 : Byte) : Word :=
  b7 ++ b6 ++ b5 ++ b4 ++ b3 ++ b2 ++ b1 ++ b0

/-- The eight bytes of a word, lowest address first (R16, R78). -/
def bytesOfWord (v : Word) : List Byte :=
  [wordByte v 0, wordByte v 1, wordByte v 2, wordByte v 3,
   wordByte v 4, wordByte v 5, wordByte v 6, wordByte v 7]

/-! ### Formats and lengths -/

/-- Does an instruction with this code have a register-id byte (R71)? -/
def needRegids : Icode → Bool
  | .IRRMOVQ | .IOPQ | .IPUSHQ | .IPOPQ | .IIRMOVQ | .IRMMOVQ | .IMRMOVQ => true
  | .IHALT | .INOP | .IJXX | .ICALL | .IRET => false

/-- Does an instruction with this code have a constant word (R71)? -/
def needValC : Icode → Bool
  | .IIRMOVQ | .IRMMOVQ | .IMRMOVQ | .IJXX | .ICALL => true
  | .IHALT | .INOP | .IRRMOVQ | .IOPQ | .IRET | .IPUSHQ | .IPOPQ => false

/-- `L = 1 + need_regids(icode) + 8 * need_valC(icode)` (R76, R85). -/
def lengthOfIcode (ic : Icode) : Nat := 1 + (needRegids ic).toNat + 8 * (needValC ic).toNat

/-- The numeral of an instruction code (R68). -/
def icodeNibble : Icode → Nibble
  | .IHALT => 0x0
  | .INOP => 0x1
  | .IRRMOVQ => 0x2
  | .IIRMOVQ => 0x3
  | .IRMMOVQ => 0x4
  | .IMRMOVQ => 0x5
  | .IOPQ => 0x6
  | .IJXX => 0x7
  | .ICALL => 0x8
  | .IRET => 0x9
  | .IPUSHQ => 0xA
  | .IPOPQ => 0xB

/-- What the first byte of a valid instruction selects: its instruction, awaiting the operands its format
has (R72 to R75). -/
inductive Template where
  | formatN (i : Instr)
  | formatR (f : RegId → RegId → Instr)
  | formatRC (f : RegId → RegId → Word → Instr)
  | formatC (f : Word → Instr)

/-- The opcode map: the 27 valid first bytes, each with its instruction; every other value is an invalid
instruction (R81, R82). -/
def opcodeMap (b0 : Byte) : Option Template :=
  match b0.toNat with
  | 0x00 => some (.formatN .halt)
  | 0x10 => some (.formatN .nop)
  | 0x20 => some (.formatR .rrmovq)
  | 0x21 => some (.formatR .cmovle)
  | 0x22 => some (.formatR .cmovl)
  | 0x23 => some (.formatR .cmove)
  | 0x24 => some (.formatR .cmovne)
  | 0x25 => some (.formatR .cmovge)
  | 0x26 => some (.formatR .cmovg)
  | 0x30 => some (.formatRC .irmovq)
  | 0x40 => some (.formatRC .rmmovq)
  | 0x50 => some (.formatRC .mrmovq)
  | 0x60 => some (.formatR .addq)
  | 0x61 => some (.formatR .subq)
  | 0x62 => some (.formatR .andq)
  | 0x63 => some (.formatR .xorq)
  | 0x70 => some (.formatC .jmp)
  | 0x71 => some (.formatC .jle)
  | 0x72 => some (.formatC .jl)
  | 0x73 => some (.formatC .je)
  | 0x74 => some (.formatC .jne)
  | 0x75 => some (.formatC .jge)
  | 0x76 => some (.formatC .jg)
  | 0x80 => some (.formatC .call)
  | 0x90 => some (.formatN .ret)
  | 0xA0 => some (.formatR .pushq)
  | 0xB0 => some (.formatR .popq)
  | _ => none

/-! ### The decoder -/

/-- What the decoder answers on a string of bytes. -/
inductive Decoded where
  /-- A whole instruction, and the bytes after it. -/
  | ok (i : Instr) (rest : List Byte)
  /-- There is no first byte (R104: the first byte is unreadable). -/
  | noFirstByte
  /-- The first byte is none of the 27 of R81 (R82, R105). -/
  | invalidFirstByte (b0 : Byte)
  /-- The first byte is valid, but the instruction's `length` bytes are not all there (R106). -/
  | tooShort (length : Nat)
deriving DecidableEq, Repr

/-- The constant word at the head of a byte string, and the bytes after it (R78). -/
def takeWord : List Byte → Option (Word × List Byte)
  | b0 :: b1 :: b2 :: b3 :: b4 :: b5 :: b6 :: b7 :: rest =>
    some (wordOfBytes b0 b1 b2 b3 b4 b5 b6 b7, rest)
  | _ => none

/-- Reads the operand bytes a format has, at the offsets of R72 to R75. -/
def decodeOperands : Template → List Byte → Decoded
  | .formatN i, rest => .ok i rest
  | .formatR f, b1 :: rest => .ok (f (hiNibble b1) (loNibble b1)) rest
  | .formatR _, [] => .tooShort 2
  | .formatRC f, b1 :: rest =>
    match takeWord rest with
    | some (v, rest') => .ok (f (hiNibble b1) (loNibble b1) v) rest'
    | none => .tooShort 10
  | .formatRC _, [] => .tooShort 10
  | .formatC f, rest =>
    match takeWord rest with
    | some (v, rest') => .ok (f v) rest'
    | none => .tooShort 9

/-- The decoder: total on every string of bytes (R67, R82, R85). -/
def decode : List Byte → Decoded
  | [] => .noFirstByte
  | b0 :: rest =>
    match opcodeMap b0 with
    | none => .invalidFirstByte b0
    | some t => decodeOperands t rest

/-! ### The fields of an instruction, as Fetch delivers them (R67, R77, R78, R106) -/

/-- The instruction code, the high nibble of byte 0 (R67, R68). -/
def Instr.icode : Instr → Icode
  | .halt => .IHALT
  | .nop => .INOP
  | .rrmovq _ _ => .IRRMOVQ
  | .cmovle _ _ => .IRRMOVQ
  | .cmovl _ _ => .IRRMOVQ
  | .cmove _ _ => .IRRMOVQ
  | .cmovne _ _ => .IRRMOVQ
  | .cmovge _ _ => .IRRMOVQ
  | .cmovg _ _ => .IRRMOVQ
  | .irmovq _ _ _ => .IIRMOVQ
  | .rmmovq _ _ _ => .IRMMOVQ
  | .mrmovq _ _ _ => .IMRMOVQ
  | .addq _ _ => .IOPQ
  | .subq _ _ => .IOPQ
  | .andq _ _ => .IOPQ
  | .xorq _ _ => .IOPQ
  | .jmp _ => .IJXX
  | .jle _ => .IJXX
  | .jl _ => .IJXX
  | .je _ => .IJXX
  | .jne _ => .IJXX
  | .jge _ => .IJXX
  | .jg _ => .IJXX
  | .call _ => .ICALL
  | .ret => .IRET
  | .pushq _ _ => .IPUSHQ
  | .popq _ _ => .IPOPQ

/-- The function code, the low nibble of byte 0 (R67, R69, R70). -/
def Instr.ifun : Instr → Nibble
  | .halt => 0
  | .nop => 0
  | .rrmovq _ _ => 0
  | .cmovle _ _ => 1
  | .cmovl _ _ => 2
  | .cmove _ _ => 3
  | .cmovne _ _ => 4
  | .cmovge _ _ => 5
  | .cmovg _ _ => 6
  | .irmovq _ _ _ => 0
  | .rmmovq _ _ _ => 0
  | .mrmovq _ _ _ => 0
  | .addq _ _ => 0
  | .subq _ _ => 1
  | .andq _ _ => 2
  | .xorq _ _ => 3
  | .jmp _ => 0
  | .jle _ => 1
  | .jl _ => 2
  | .je _ => 3
  | .jne _ => 4
  | .jge _ => 5
  | .jg _ => 6
  | .call _ => 0
  | .ret => 0
  | .pushq _ _ => 0
  | .popq _ _ => 0

/-- The high nibble of the register-id byte, RNONE where the format has none (R77, R106). -/
def Instr.rA : Instr → RegId
  | .halt => RNONE
  | .nop => RNONE
  | .rrmovq rA _ => rA
  | .cmovle rA _ => rA
  | .cmovl rA _ => rA
  | .cmove rA _ => rA
  | .cmovne rA _ => rA
  | .cmovge rA _ => rA
  | .cmovg rA _ => rA
  | .irmovq unused _ _ => unused
  | .rmmovq rA _ _ => rA
  | .mrmovq rA _ _ => rA
  | .addq rA _ => rA
  | .subq rA _ => rA
  | .andq rA _ => rA
  | .xorq rA _ => rA
  | .jmp _ => RNONE
  | .jle _ => RNONE
  | .jl _ => RNONE
  | .je _ => RNONE
  | .jne _ => RNONE
  | .jge _ => RNONE
  | .jg _ => RNONE
  | .call _ => RNONE
  | .ret => RNONE
  | .pushq rA _ => rA
  | .popq rA _ => rA

/-- The low nibble of the register-id byte, RNONE where the format has none (R77, R106). -/
def Instr.rB : Instr → RegId
  | .halt => RNONE
  | .nop => RNONE
  | .rrmovq _ rB => rB
  | .cmovle _ rB => rB
  | .cmovl _ rB => rB
  | .cmove _ rB => rB
  | .cmovne _ rB => rB
  | .cmovge _ rB => rB
  | .cmovg _ rB => rB
  | .irmovq _ rB _ => rB
  | .rmmovq _ rB _ => rB
  | .mrmovq _ rB _ => rB
  | .addq _ rB => rB
  | .subq _ rB => rB
  | .andq _ rB => rB
  | .xorq _ rB => rB
  | .jmp _ => RNONE
  | .jle _ => RNONE
  | .jl _ => RNONE
  | .je _ => RNONE
  | .jne _ => RNONE
  | .jge _ => RNONE
  | .jg _ => RNONE
  | .call _ => RNONE
  | .ret => RNONE
  | .pushq _ unused => unused
  | .popq _ unused => unused

/-- The constant word, 0 where the format has none (R78, R106). -/
def Instr.valC : Instr → Word
  | .halt => 0
  | .nop => 0
  | .rrmovq _ _ => 0
  | .cmovle _ _ => 0
  | .cmovl _ _ => 0
  | .cmove _ _ => 0
  | .cmovne _ _ => 0
  | .cmovge _ _ => 0
  | .cmovg _ _ => 0
  | .irmovq _ _ v => v
  | .rmmovq _ _ v => v
  | .mrmovq _ _ v => v
  | .addq _ _ => 0
  | .subq _ _ => 0
  | .andq _ _ => 0
  | .xorq _ _ => 0
  | .jmp v => v
  | .jle v => v
  | .jl v => v
  | .je v => v
  | .jne v => v
  | .jge v => v
  | .jg v => v
  | .call v => v
  | .ret => 0
  | .pushq _ _ => 0
  | .popq _ _ => 0

/-- The length of an instruction in bytes (R76). -/
def Instr.length (i : Instr) : Nat := lengthOfIcode i.icode

/-! ### The encoder -/

/-- Byte 0 (R67, R81). -/
def Instr.byte0 (i : Instr) : Byte := byteOf (icodeNibble i.icode) i.ifun

/-- The bytes of an instruction, lowest address first (R72 to R75). -/
def encode (i : Instr) : List Byte :=
  i.byte0 ::
    ((if needRegids i.icode then [byteOf i.rA i.rB] else []) ++
     (if needValC i.icode then bytesOfWord i.valC else []))

/-! ### The host's question -/

/-- The first `n` bytes of the number `w`, byte `k` its bits `8k+7 … 8k`. -/
def bytesOfNat (n w : Nat) : List Byte :=
  (List.range n).map fun k => BitVec.ofNat 8 (w >>> (8 * k))

/-- The instruction the decoder reads from an instruction whose bits are `w` (bit 0 the least significant
bit of the first byte), every bit from `nbits` up being 0; `none` where the decoder refuses. -/
def decodeTableWord (nbits w : Nat) : Option Instr :=
  match decode (bytesOfNat Config.maxInstrBytes (w % 2 ^ nbits)) with
  | .ok i _ => some i
  | .noFirstByte => none
  | .invalidFirstByte _ => none
  | .tooShort _ => none

end Sys2Proof
end

