-- ==== Sys2Proof/Machine/State.lean ====
section
/-! DEFINITION. The state of the CORE: the tuple `(RF, CC, MEM, RUN, F, D, E, M, W)` of 10_state.md, the
parameter `MEM_CAPACITY` (00_scope.md R10, R11), and the state after reset (R46, R227 to R233). Plain data. -/

namespace Sys2Proof.Machine

/-! ### Status codes (R35, R36) -/

/-- The status an instruction in flight carries (R35). -/
inductive Stat where
  /-- A bubble: a squashed or empty slot, treated as AOK. -/
  | BUB
  /-- Normal operation. -/
  | AOK
  /-- A halt instruction. -/
  | HLT
  /-- A memory-address error, of a fetch or of a data access. -/
  | ADR
  /-- An invalid instruction. -/
  | INS
deriving DecidableEq, Repr

/-- The exceptional statuses, `EXC = {HLT, ADR, INS}` (R23): the whole set of exceptions (R207, R208). -/
inductive Exc where
  | HLT | ADR | INS
deriving DecidableEq, Repr

/-- The run status RUN (R36). -/
inductive RunStatus where
  | running
  | stopped (e : Exc)
deriving DecidableEq, Repr

/-! ### Condition codes, registers, memory -/

/-- The condition-code register CC (R33). -/
structure CC where
  /-- Zero flag. -/
  ZF : Bool
  /-- Sign flag. -/
  SF : Bool
  /-- Overflow flag. -/
  OF : Bool
deriving DecidableEq, Repr

/-- The register file RF: fifteen 64-bit registers, ids 0 to 14 (R25). -/
abbrev RegFile := Vector Word 15

/-- The memory MEM (R38, R47), as the bytes that are not 0: (address, byte) pairs in rising order of
address, none with byte 0, since an address that is not listed reads as 0 (R232; log entry 11). -/
abbrev Memory := List Host.Cell

/-! ### The pipeline latches (R39, R40). Only the committed outputs are state (R39, R44). `stat` and `icode` are
inductive types (DEDUCED, log entry 7). -/

/-- Latch F, the input of Fetch. -/
structure LatchF where
  predPC : Word
deriving DecidableEq, Repr

/-- Latch D, between Fetch and Decode. -/
structure LatchD where
  stat : Stat
  icode : Icode
  ifun : Nibble
  rA : RegId
  rB : RegId
  valC : Word
  valP : Word
deriving DecidableEq, Repr

/-- Latch E, between Decode and Execute. No rule reads `srcA` and `srcB`; they are part of the latch (R41). -/
structure LatchE where
  stat : Stat
  icode : Icode
  ifun : Nibble
  valC : Word
  valA : Word
  valB : Word
  dstE : RegId
  dstM : RegId
  srcA : RegId
  srcB : RegId
deriving DecidableEq, Repr

/-- Latch M, between Execute and Memory. -/
structure LatchM where
  stat : Stat
  icode : Icode
  Cnd : Bool
  valE : Word
  valA : Word
  dstE : RegId
  dstM : RegId
deriving DecidableEq, Repr

/-- Latch W, between Memory and Writeback. -/
structure LatchW where
  stat : Stat
  icode : Icode
  valE : Word
  valM : Word
  dstE : RegId
  dstM : RegId
deriving DecidableEq, Repr

/-- The bubble value of latch F (R40). F is never bubbled (R163). -/
def LatchF.bubble : LatchF := { predPC := 0 }

/-- The bubble values of latch D (R40). -/
def LatchD.bubble : LatchD :=
  { stat := .BUB, icode := .INOP, ifun := 0, rA := RNONE, rB := RNONE, valC := 0, valP := 0 }

/-- The bubble values of latch E (R40). -/
def LatchE.bubble : LatchE :=
  { stat := .BUB, icode := .INOP, ifun := 0, valC := 0, valA := 0, valB := 0,
    dstE := RNONE, dstM := RNONE, srcA := RNONE, srcB := RNONE }

/-- The bubble values of latch M (R40). -/
def LatchM.bubble : LatchM :=
  { stat := .BUB, icode := .INOP, Cnd := false, valE := 0, valA := 0, dstE := RNONE, dstM := RNONE }

/-- The bubble values of latch W (R40). -/
def LatchW.bubble : LatchW :=
  { stat := .BUB, icode := .INOP, valE := 0, valM := 0, dstE := RNONE, dstM := RNONE }

/-! ### The state -/

/-- The machine's state (10_state.md, preamble). -/
structure State where
  /-- RF (R25). -/
  regs : RegFile
  /-- CC (R33). -/
  cc : CC
  /-- MEM (R38). -/
  mem : Memory
  /-- RUN (R36). -/
  run : RunStatus
  /-- Latch F (R40). -/
  F : LatchF
  /-- Latch D (R40). -/
  D : LatchD
  /-- Latch E (R40). -/
  E : LatchE
  /-- Latch M (R40). -/
  M : LatchM
  /-- Latch W (R40). -/
  W : LatchW
  /-- `MEM_CAPACITY`, the parameter of R10 and R11. It is data of the state so that every statement about
  all states is one about all capacities; no step changes it (DESIGN CHOICE, log entry 3). -/
  memCapacity : Nat
deriving DecidableEq, Repr

/-- The reasons a step stops with a fault. -/
inductive Fault where
  /-- Raised by `step` on a state whose RUN is `Stopped(e)`: "a state with `RUN = Stopped(s)` is final: it
  has no step" (R97). Safe: the spec's machine does not go on either (log entry 12). -/
  | stopped (e : Exc)
deriving DecidableEq, Repr

/-- The reasons a step is refused. -/
inductive Refusal where
  /-- Raised by an arm of `exec` whose instruction has no meaning yet. No arm raises it: all 27
  instructions are modelled. Safe. -/
  | notModelled (mnemonic : String)
deriving DecidableEq, Repr

/-- The state right after reset with a given capacity and loaded image (R46, R227 to R233). -/
def State.boot (capacity : Nat) (image : Memory) : State :=
  { regs := Vector.replicate 15 0
    cc := { ZF := true, SF := false, OF := false }
    mem := image
    run := .running
    F := { predPC := Config.resetPC }
    D := LatchD.bubble
    E := LatchE.bubble
    M := LatchM.bubble
    W := LatchW.bubble
    memCapacity := capacity }

/-- The machine right after reset, with no image loaded: every register 0 (R229), CC = (1, 0, 0) (R230), the
first fetch at address 0 (R228), every latch field at its bubble value (R231), every byte of memory 0 (R232),
RUN = Running (R233). The capacity is `Config.memCapacity` (DESIGN CHOICE, log entry 1). -/
def State.reset : State := State.boot Config.memCapacity []

end Sys2Proof.Machine
end

