-- ==== Sys2Proof/Machine/Ops.lean ====
section
/-! DEFINITION. The named operations of the machine: registers (R15, R28), memory (R16, R47 to R59), taking an
exception (R36, R96, R215), committing a latch (R90), and the program counter of the straight-line machine (R19,
R31, R175). There is no return from an exception (R217), so there is no operation for one. -/

namespace Sys2Proof.Machine

/-! ### Registers -/

/-- `x[i]`: the contents of register `i` for ids 0 to 14, and 0 for RNONE, the one other id (R15, R28). -/
def RegFile.read (rf : RegFile) (id : RegId) : Word :=
  if h : id.toNat < 15 then rf[id.toNat] else 0

/-- `x[i] <- v`: for RNONE nothing is written (R15, R28). -/
def RegFile.write (rf : RegFile) (id : RegId) (v : Word) : RegFile :=
  if h : id.toNat < 15 then rf.set id.toNat v else rf

/-- `x[i]` of a state (R15). -/
def State.readReg (s : State) (id : RegId) : Word := s.regs.read id

/-- The state with `x[i] <- v` done (R15). -/
def State.writeReg (s : State) (id : RegId) (v : Word) : State := { s with regs := s.regs.write id v }

/-! ### Memory -/

/-- What an address that is not listed reads as: "every byte the image does not give is 0" (R232). -/
def Memory.unlisted : Byte := 0

/-- The byte at an address (R47). -/
def Memory.read : Memory → Nat → Byte
  | [], _ => Memory.unlisted
  | (k, b) :: rest, a => if k = a then b else Memory.read rest a

/-- The memory with one byte written, in canonical form again (R38, R52). -/
def Memory.write : Memory → Nat → Byte → Memory
  | [], a, b => if b = Memory.unlisted then [] else [(a, b)]
  | (k, c) :: rest, a, b =>
    if a < k then
      if b = Memory.unlisted then (k, c) :: rest else (a, b) :: (k, c) :: rest
    else if a = k then
      if b = Memory.unlisted then rest else (a, b) :: rest
    else (k, c) :: Memory.write rest a b

/-- The canonical form: addresses strictly rising, no entry equal to what an unlisted address reads as. -/
abbrev Memory.wf (m : Memory) : Prop :=
  m.Pairwise (fun c d => c.1 < d.1) ∧ ∀ c ∈ m, c.2 ≠ Memory.unlisted

/-- The bytes at `a`, `a+1`, …, `a+n-1` (R16: on unbounded integers, no wrap-around). -/
def Memory.readBytes (m : Memory) : Nat → Nat → List Byte
  | _, 0 => []
  | a, n + 1 => m.read a :: Memory.readBytes m (a + 1) n

/-- The memory with a string of bytes written from `a` up. -/
def Memory.writeBytes : Memory → Nat → List Byte → Memory
  | m, _, [] => m
  | m, a, b :: bs => Memory.writeBytes (m.write a b) (a + 1) bs

/-- The little-endian value of the eight bytes at `a` (R16, R50). -/
def Memory.readWord (m : Memory) (a : Nat) : Word :=
  wordOfBytes (m.read a) (m.read (a + 1)) (m.read (a + 2)) (m.read (a + 3))
    (m.read (a + 4)) (m.read (a + 5)) (m.read (a + 6)) (m.read (a + 7))

/-- The eight bytes of `v` written from `a` up: byte `a+k` becomes `v[8k+7:8k]` (R16, R52). -/
def Memory.writeWord (m : Memory) (a : Nat) (v : Word) : Memory := m.writeBytes a (bytesOfWord v)

/-- "An n-byte access at address a is valid iff `a + n <= MEM_CAPACITY`, computed on unbounded integers"
(R55). No access needs alignment (R53). -/
def State.validAccess (s : State) (addr : Word) (n : Nat) : Bool := addr.toNat + n ≤ s.memCapacity

/-- `MemRead(addr, 8)`: the value and the error flag; an invalid read reads no byte and yields 0 (R16, R55,
R148). -/
def State.memRead (s : State) (addr : Word) : Word × Bool :=
  if s.validAccess addr Config.dataBytes then (s.mem.readWord addr.toNat, false) else (0, true)

/-- `MemWrite(addr, 8, v)`: the memory after the write and the error flag; an invalid write writes no byte
(R16, R55, R149). -/
def State.memWrite (s : State) (addr : Word) (v : Word) : Memory × Bool :=
  if s.validAccess addr Config.dataBytes then (s.mem.writeWord addr.toNat v, false) else (s.mem, true)

/-! ### Exceptions -/

/-- The exceptional status a status is, if it is one (R23). -/
def Stat.exc? : Stat → Option Exc
  | .BUB => none
  | .AOK => none
  | .HLT => some .HLT
  | .ADR => some .ADR
  | .INS => some .INS

/-- `stat in EXC` (R23). -/
def Stat.isExc (st : Stat) : Bool := st.exc?.isSome

/-- The numeral of a status, for reporting only (R35, R207). -/
def Stat.numeral : Stat → Nat
  | .BUB => 0
  | .AOK => 1
  | .HLT => 2
  | .ADR => 3
  | .INS => 4

/-- The status an exceptional status is. -/
def Exc.stat : Exc → Stat
  | .HLT => .HLT
  | .ADR => .ADR
  | .INS => .INS

/-- RUN once an instruction with status `st` has retired: `Stopped(st)` for an exceptional status, else
unchanged (R36, R96). -/
def RunStatus.afterRetire (run : RunStatus) (st : Stat) : RunStatus :=
  match st.exc? with
  | some e => .stopped e
  | none => run

/-- Taking an exception, the one way it happens: an instruction with status `st` retires and, if the status is
exceptional, the run stops with it. "No state is saved, no mode changes, no vector, handler or base address
exists" (R215); nothing but the status is recorded (R209). -/
def State.retire (s : State) (st : Stat) : State := { s with run := s.run.afterRetire st }

/-! ### Latches -/

/-- The commit mode of a latch in a cycle (R90, R91). -/
inductive Mode where
  | NORMAL | STALL | BUBBLE
deriving DecidableEq, Repr

/-- The commit of a latch: its pending input, its old output or its bubble value (R90). All fields of a latch
commit with one mode (R91). -/
def commit {α : Type} (mode : Mode) (input output bubble : α) : α :=
  match mode with
  | .NORMAL => input
  | .STALL => output
  | .BUBBLE => bubble

/-! ### The program counter and the data accesses of the straight-line machine (R175) -/

/-- The `pc` of the straight-line machine: F.predPC, "the only PC-like state" (R31; DESIGN CHOICE, log entry 5). -/
def State.pc (s : State) : Word := s.F.predPC

/-- `pc <- target` (R19). -/
def State.setPC (s : State) (target : Word) : State := { s with F := { predPC := target } }

/-- `valP = a + L` modulo 2^64, for an instruction at `pc` (R32). -/
def State.valP (s : State) (i : Instr) : Word := s.pc + BitVec.ofNat 64 i.length

/-- CC set to a new value (R137). -/
def State.setCC (s : State) (cc : CC) : State := { s with cc := cc }

/-- A store of the straight-line machine: the write, and status ADR if it is invalid (R175 item 4). -/
def State.store (s : State) (addr v : Word) : State :=
  let w := s.memWrite addr v
  { s with mem := w.1 }.retire (if w.2 then .ADR else .AOK)

/-- The status of a load of the straight-line machine from `addr` (R175 item 4). -/
def State.loadStat (s : State) (addr : Word) : Stat := if (s.memRead addr).2 then .ADR else .AOK

end Sys2Proof.Machine
end

