-- ==== Sys2Proof/Machine/Fetch.lean ====
section
/-! DEFINITION. The Fetch stage (41_fetch.md R102 to R114). -/

namespace Sys2Proof.Machine

/-- PC selection: a mispredicted jump's fall-through address, else a return address, else the predicted
address (R102). -/
def fetchPC (s : State) : Word :=
  if s.M.icode = .IJXX ∧ s.M.Cnd = false then s.M.valA
  else if s.W.icode = .IRET then s.W.valM
  else s.F.predPC

/-- The readable bytes from `pc` up, at most the longest instruction: those at `pc`, `pc+1`, … that lie in
`[0, MEM_CAPACITY)`, with no wrap-around (R104, R106, R16; log entry 13). -/
def fetchWindow (s : State) (pc : Word) : List Byte :=
  s.mem.readBytes pc.toNat (min Config.maxInstrBytes (s.memCapacity - pc.toNat))

/-- What Fetch reads at `pc`: an instruction, or the reason there is none (R104 to R106). -/
def fetchInstr (s : State) (pc : Word) : Decoded := decode (fetchWindow s pc)

/-- The status of a fetched instruction: HLT for a halt, else AOK (R107). -/
def fetchedStat (i : Instr) : Stat :=
  match i.icode with
  | .IHALT => .HLT
  | .INOP | .IRRMOVQ | .IIRMOVQ | .IRMMOVQ | .IMRMOVQ | .IOPQ | .IJXX | .ICALL | .IRET | .IPUSHQ | .IPOPQ => .AOK

/-- The fields of a fetched instruction at `pc` (R106 to R109). -/
def instrSlot (i : Instr) (pc : Word) : LatchD :=
  { stat := fetchedStat i
    icode := i.icode
    ifun := i.ifun
    rA := i.rA
    rB := i.rB
    valC := i.valC
    valP := pc + BitVec.ofNat 64 i.length }

/-- The fields of an erroneous fetch: those of a no-op, the status alone recording the error (R108), and
`valP = f_pc + L` (R109). -/
def errorSlot (st : Stat) (pc : Word) (length : Nat) : LatchD :=
  { stat := st
    icode := .INOP
    ifun := 0
    rA := RNONE
    rB := RNONE
    valC := 0
    valP := pc + BitVec.ofNat 64 length }

/-- The fields Fetch delivers from `pc` (R104 to R109): ADR where the first byte is unreadable, INS where it is
none of the 27, ADR where a later byte is unreadable, else the instruction. -/
def fetchSlot (s : State) (pc : Word) : LatchD :=
  match fetchInstr s pc with
  | .ok i _ => instrSlot i pc
  | .noFirstByte => errorSlot .ADR pc 1
  | .invalidFirstByte _ => errorSlot .INS pc 1
  | .tooShort length => errorSlot .ADR pc length

/-- `f_predPC`: the instruction's own address after an exceptional fetch, the constant of a jump or call, else
the next sequential address (R110). -/
def predictPC (slot : LatchD) (pc : Word) : Word :=
  if slot.stat.isExc then pc
  else if slot.icode = .IJXX ∨ slot.icode = .ICALL then slot.valC
  else slot.valP

/-- D's pending inputs (R112). -/
def dIn (s : State) : LatchD := fetchSlot s (fetchPC s)

/-- F's pending input (R112). -/
def fIn (s : State) : LatchF := { predPC := predictPC (dIn s) (fetchPC s) }

end Sys2Proof.Machine
end

