-- ==== Sys2Proof/Machine/Flags.lean ====
section
/-! DEFINITION. The ALU, the condition-code generator and the condition test (43_execute.md R133 to R141). -/

namespace Sys2Proof.Machine

/-- ALU function code of addq, and of every instruction that is no OPq (R69, R133). -/
def ADD : Nibble := 0
/-- ALU function code of subq (R69). -/
def SUB : Nibble := 1
/-- ALU function code of andq (R69). -/
def AND : Nibble := 2
/-- ALU function code of xorq (R69). -/
def XOR : Nibble := 3

/-- `ALU(alufun, aluA, aluB)`: aluB is the left operand (R134). Codes 4 to 15 never reach the ALU; their
result is a free value (log entry 2). -/
def alu (alufun : Nibble) (aluA aluB : Word) : Word :=
  match alufun.toNat with
  | 0 => aluB + aluA
  | 1 => aluB - aluA
  | 2 => aluB &&& aluA
  | 3 => aluB ^^^ aluA
  | _ => Config.unlistedAlu alufun aluA aluB

/-- `new_OF` (R135), with the free value of log entry 2 for codes 4 to 15. -/
def newOF (alufun : Nibble) (aluA aluB : Word) : Bool :=
  let valE := alu alufun aluA aluB
  match alufun.toNat with
  | 0 => (aluA.msb == aluB.msb) && (valE.msb != aluA.msb)
  | 1 => (aluA.msb != aluB.msb) && (valE.msb != aluB.msb)
  | 2 => false
  | 3 => false
  | _ => Config.unlistedOverflow alufun aluA aluB

/-- The new condition codes of an OPq (R135). -/
def newCC (alufun : Nibble) (aluA aluB : Word) : CC :=
  { ZF := alu alufun aluA aluB == 0
    SF := (alu alufun aluA aluB).msb
    OF := newOF alufun aluA aluB }

/-- Function code of rrmovq and jmp (R70). -/
def condAlways : Nibble := 0
/-- Function code of cmovle and jle (R70). -/
def condLE : Nibble := 1
/-- Function code of cmovl and jl (R70). -/
def condL : Nibble := 2
/-- Function code of cmove and je (R70). -/
def condE : Nibble := 3
/-- Function code of cmovne and jne (R70). -/
def condNE : Nibble := 4
/-- Function code of cmovge and jge (R70). -/
def condGE : Nibble := 5
/-- Function code of cmovg and jg (R70). -/
def condG : Nibble := 6

/-- `cond(CC, fn)` (R138). Codes 7 to 15 are no condition; the test is then a free value (log entry 2). -/
def cond (cc : CC) (fn : Nibble) : Bool :=
  match fn.toNat with
  | 0 => true
  | 1 => (cc.SF ^^ cc.OF) || cc.ZF
  | 2 => cc.SF ^^ cc.OF
  | 3 => cc.ZF
  | 4 => !cc.ZF
  | 5 => !(cc.SF ^^ cc.OF)
  | 6 => !(cc.SF ^^ cc.OF) && !cc.ZF
  | _ => Config.unlistedCond fn cc.ZF cc.SF cc.OF

end Sys2Proof.Machine
end

