-- ==== Sys2Proof/Machine/Operands.lean ====
section
/-! DEFINITION. Operand forms: the routing of operands per instruction code (42_decode.md R115 to R119,
43_execute.md R131 to R133, 44_memory_stage.md R145 to R147) and the operand addresses of the instructions (30_encoding.md R79). -/

namespace Sys2Proof.Machine

/-! ### Source and destination ids -/

/-- `d_srcA` (R116). -/
def srcA (ic : Icode) (rA : RegId) : RegId :=
  match ic with
  | .IRRMOVQ | .IRMMOVQ | .IOPQ | .IPUSHQ => rA
  | .IPOPQ | .IRET => RRSP
  | .IHALT | .INOP | .IIRMOVQ | .IMRMOVQ | .IJXX | .ICALL => RNONE

/-- `d_srcB` (R117). -/
def srcB (ic : Icode) (rB : RegId) : RegId :=
  match ic with
  | .IOPQ | .IRMMOVQ | .IMRMOVQ => rB
  | .IPUSHQ | .IPOPQ | .ICALL | .IRET => RRSP
  | .IHALT | .INOP | .IRRMOVQ | .IIRMOVQ | .IJXX => RNONE

/-- `d_dstE` (R118). -/
def dstE (ic : Icode) (rB : RegId) : RegId :=
  match ic with
  | .IRRMOVQ | .IIRMOVQ | .IOPQ => rB
  | .IPUSHQ | .IPOPQ | .ICALL | .IRET => RRSP
  | .IHALT | .INOP | .IRMMOVQ | .IMRMOVQ | .IJXX => RNONE

/-- `d_dstM` (R119). -/
def dstM (ic : Icode) (rA : RegId) : RegId :=
  match ic with
  | .IMRMOVQ | .IPOPQ => rA
  | .IHALT | .INOP | .IRRMOVQ | .IIRMOVQ | .IRMMOVQ | .IOPQ | .IJXX | .ICALL | .IRET | .IPUSHQ => RNONE

/-! ### ALU inputs -/

/-- `aluA` (R131). -/
def aluA (e : LatchE) : Word :=
  match e.icode with
  | .IRRMOVQ | .IOPQ => e.valA
  | .IIRMOVQ | .IRMMOVQ | .IMRMOVQ => e.valC
  | .ICALL | .IPUSHQ => -8
  | .IRET | .IPOPQ => 8
  | .IHALT | .INOP | .IJXX => 0

/-- `aluB` (R132). -/
def aluB (e : LatchE) : Word :=
  match e.icode with
  | .IRMMOVQ | .IMRMOVQ | .IOPQ | .ICALL | .IPUSHQ | .IRET | .IPOPQ => e.valB
  | .IHALT | .INOP | .IRRMOVQ | .IIRMOVQ | .IJXX => 0

/-- `alufun` (R133): 0 is ADD. -/
def alufun (e : LatchE) : Nibble :=
  match e.icode with
  | .IOPQ => e.ifun
  | .IHALT | .INOP | .IRRMOVQ | .IIRMOVQ | .IRMMOVQ | .IMRMOVQ | .IJXX | .ICALL | .IRET | .IPUSHQ | .IPOPQ => 0

/-! ### Data accesses -/

/-- `mem_read`: the load class (R145). -/
def isLoad : Icode → Bool
  | .IMRMOVQ | .IPOPQ | .IRET => true
  | .IHALT | .INOP | .IRRMOVQ | .IIRMOVQ | .IRMMOVQ | .IOPQ | .IJXX | .ICALL | .IPUSHQ => false

/-- `mem_write`: the store class (R145). -/
def isStore : Icode → Bool
  | .IRMMOVQ | .IPUSHQ | .ICALL => true
  | .IHALT | .INOP | .IRRMOVQ | .IIRMOVQ | .IMRMOVQ | .IOPQ | .IJXX | .IRET | .IPOPQ => false

/-- `mem_addr`: the computed address, the old stack pointer, or 0 where there is no access (R146). -/
def memAddr (m : LatchM) : Word :=
  match m.icode with
  | .IRMMOVQ | .IMRMOVQ | .IPUSHQ | .ICALL => m.valE
  | .IPOPQ | .IRET => m.valA
  | .IHALT | .INOP | .IRRMOVQ | .IIRMOVQ | .IOPQ | .IJXX => 0

/-! ### Operand addresses of the straight-line machine (R79) -/

/-- The effective address of `D(rB)`: `x[rB] + valC` modulo 2^64 (R79, R202, R203). -/
def State.effectiveAddr (s : State) (rB : RegId) (valC : Word) : Word := s.readReg rB + valC

/-- The stack slot a push writes: `x[RRSP] - 8` modulo 2^64 (R79, R197, R200). -/
def State.pushAddr (s : State) : Word := s.readReg RRSP - 8

/-- The stack slot a pop reads: `x[RRSP]` (R79, R198, R201). -/
def State.popAddr (s : State) : Word := s.readReg RRSP

end Sys2Proof.Machine
end

