-- ==== Sys2Proof/Machine/MemoryStage.lean ====
section
/-! DEFINITION. The Memory stage (44_memory_stage.md R145 to R155). Its signals are functions of latch M and of
the pre-cycle memory (R59). -/

namespace Sys2Proof.Machine

/-- `m_valM`: the value read, 0 where nothing is read or the read is invalid (R148). -/
def mValM (m : LatchM) (s : State) : Word :=
  if isLoad m.icode then (s.memRead (memAddr m)).1 else 0

/-- The memory after the stage's write, if it makes one; the data is M.valA (R147, R149). -/
def mMem (m : LatchM) (s : State) : Memory :=
  if isStore m.icode then (s.memWrite (memAddr m) m.valA).1 else s.mem

/-- `dmem_error` (R150). -/
def dmemError (m : LatchM) (s : State) : Bool :=
  (isLoad m.icode && (s.memRead (memAddr m)).2) || (isStore m.icode && (s.memWrite (memAddr m) m.valA).2)

/-- `m_stat` (R151). -/
def mStat (m : LatchM) (s : State) : Stat := if dmemError m s then .ADR else m.stat

/-- W's pending inputs (R153). -/
def wIn (m : LatchM) (s : State) : LatchW :=
  { stat := mStat m s
    icode := m.icode
    valE := m.valE
    valM := mValM m s
    dstE := m.dstE
    dstM := m.dstM }

end Sys2Proof.Machine
end

