-- ==== Sys2Proof/Machine/ExecuteStage.lean ====
section
/-! DEFINITION. The Execute stage (43_execute.md R131 to R144). Its signals are functions of latch E and CC; the
suppression of a CC write also looks at the Memory stage's status and at latch W. -/

namespace Sys2Proof.Machine

/-- `e_valE` (R134). -/
def eValE (e : LatchE) : Word := alu (alufun e) (aluA e) (aluB e)

/-- `e_Cnd`: the condition of a jump or conditional move, 0 for every other instruction (R139). -/
def eCnd (e : LatchE) (cc : CC) : Bool :=
  match e.icode with
  | .IJXX | .IRRMOVQ => cond cc e.ifun
  | .IHALT | .INOP | .IIRMOVQ | .IRMMOVQ | .IMRMOVQ | .IOPQ | .ICALL | .IRET | .IPUSHQ | .IPOPQ => false

/-- `e_dstE`: no register for a conditional move whose condition is false (R141). -/
def eDstE (e : LatchE) (cc : CC) : RegId :=
  if e.icode = .IRRMOVQ ∧ eCnd e cc = false then RNONE else e.dstE

/-- Is the instruction one that sets the condition codes (R34, R137)? -/
def setsCC (ic : Icode) : Bool := ic = .IOPQ

/-- The condition codes an instruction in E leaves when nothing suppresses its write (R135, R137). -/
def eCC (e : LatchE) (cc : CC) : CC :=
  if setsCC e.icode then newCC (alufun e) (aluA e) (aluB e) else cc

/-- `set_cc`: an OPq in E, and no exceptional status in M or W (R136). -/
def setCC (s : State) : Bool :=
  setsCC s.E.icode && !(mStat s.M s).isExc && !s.W.stat.isExc

/-- M's pending inputs (R142). -/
def mIn (e : LatchE) (cc : CC) : LatchM :=
  { stat := e.stat
    icode := e.icode
    Cnd := eCnd e cc
    valE := eValE e
    valA := e.valA
    dstE := eDstE e cc
    dstM := e.dstM }

end Sys2Proof.Machine
end

