-- ==== Sys2Proof/Machine/DecodeStage.lean ====
section
/-! DEFINITION. The Decode stage: operand ids, register read, forwarding (42_decode.md R115 to R130). -/

namespace Sys2Proof.Machine

/-- The forwarding sources in order of priority: the youngest pending write first, and within one instruction
the memory result before the ALU result (R121, R122). -/
def forwardSources (s : State) : List (RegId × Word) :=
  [(eDstE s.E s.cc, eValE s.E),
   (s.M.dstM, mValM s.M s),
   (s.M.dstE, s.M.valE),
   (s.W.dstM, s.W.valM),
   (s.W.dstE, s.W.valE)]

/-- The value of the first source whose id is `src`, else the register's (R123, R124). -/
def forwarded (src : RegId) : List (RegId × Word) → Word → Word
  | [], reg => reg
  | (dst, v) :: rest, reg => if src = dst then v else forwarded src rest reg

/-- An operand value: 0 for RNONE, which is never matched (R125), else the forwarded or register value. -/
def operandValue (s : State) (src : RegId) : Word :=
  if src = RNONE then 0 else forwarded src (forwardSources s) (s.readReg src)

/-- E's pending inputs, given what each source id reads as (R123, R128). For call and jXX valA is valP. -/
def eInWith (value : RegId → Word) (d : LatchD) : LatchE :=
  { stat := d.stat
    icode := d.icode
    ifun := d.ifun
    valC := d.valC
    valA := if d.icode = .ICALL ∨ d.icode = .IJXX then d.valP else value (srcA d.icode d.rA)
    valB := value (srcB d.icode d.rB)
    dstE := dstE d.icode d.rB
    dstM := dstM d.icode d.rA
    srcA := srcA d.icode d.rA
    srcB := srcB d.icode d.rB }

/-- E's pending inputs (R128). -/
def eIn (s : State) : LatchE := eInWith (operandValue s) s.D

end Sys2Proof.Machine
end

