-- ==== Sys2Proof/Machine/Hazard.lean ====
section
/-! DEFINITION. The hazard and pipeline control unit (45_writeback_control.md R159 to R174). -/

namespace Sys2Proof.Machine

/-- A mispredicted branch in E (R159). -/
def mispredict (s : State) : Bool := s.E.icode = .IJXX && !eCnd s.E s.cc

/-- A load-use hazard: the instruction in D needs a register a load in E will write (R160). -/
def loaduse (s : State) : Bool :=
  (s.E.icode = .IMRMOVQ || s.E.icode = .IPOPQ) && s.E.dstM != RNONE &&
    (s.E.dstM = srcA s.D.icode s.D.rA || s.E.dstM = srcB s.D.icode s.D.rB)

/-- A return in D, E or M (R161). -/
def retInFlight (s : State) : Bool :=
  s.D.icode = .IRET || s.E.icode = .IRET || s.M.icode = .IRET

/-- An exceptional status in M or W (R162). -/
def excMW (s : State) : Bool := (mStat s.M s).isExc || s.W.stat.isExc

/-- F.mode (R163). -/
def modeF (s : State) : Mode := if loaduse s || retInFlight s then .STALL else .NORMAL

/-- D.mode (R164). -/
def modeD (s : State) : Mode :=
  if mispredict s || (retInFlight s && !loaduse s) then .BUBBLE
  else if loaduse s && !mispredict s then .STALL
  else .NORMAL

/-- E.mode (R165). -/
def modeE (s : State) : Mode := if mispredict s || loaduse s then .BUBBLE else .NORMAL

/-- M.mode (R166). -/
def modeM (s : State) : Mode := if excMW s then .BUBBLE else .NORMAL

/-- W.mode: NORMAL in every cycle (R167). -/
def modeW (_s : State) : Mode := .NORMAL

end Sys2Proof.Machine
end

