-- ==== Sys2Proof/Machine/Writeback.lean ====
section
/-! DEFINITION. The Writeback stage (45_writeback_control.md R156 to R158). -/

namespace Sys2Proof.Machine

/-- The register file after the stage's writes: valE first, valM after it, so that valM stays where both name
one register; made whatever the status is (R156, R157). -/
def writebackRegs (w : LatchW) (rf : RegFile) : RegFile := (rf.write w.dstE w.valE).write w.dstM w.valM

end Sys2Proof.Machine
end

