-- ==== Sys2Proof/Machine/Cycle.lean ====
section
/-! DEFINITION. One cycle: evaluation of every stage against the pre-cycle state, then the commit of every latch
and of RF, CC, MEM and RUN at once (40_pipeline_cycle.md R87 to R96). -/

namespace Sys2Proof.Machine

/-- `cycle(S)` (R94): each name on a right side is a function of the pre-cycle state (R88). -/
def cycle (s : State) : State :=
  { regs := writebackRegs s.W s.regs
    cc := if setCC s then eCC s.E s.cc else s.cc
    mem := mMem s.M s
    run := s.run.afterRetire s.W.stat
    F := commit (modeF s) (fIn s) s.F LatchF.bubble
    D := commit (modeD s) (dIn s) s.D LatchD.bubble
    E := commit (modeE s) (eIn s) s.E LatchE.bubble
    M := commit (modeM s) (mIn s.E s.cc) s.M LatchM.bubble
    W := commit (modeW s) (wIn s.M s) s.W LatchW.bubble
    memCapacity := s.memCapacity }

end Sys2Proof.Machine
end

