-- ==== Sys2Proof/Machine/Arith.lean ====
section
/-! DEFINITION. The sequential effects of addq, subq, andq and xorq (47_arith.md R185 to R189). -/

namespace Sys2Proof.Machine

/-- With a = x[rA] and b = x[rB]: `x[rB] <- b op a`, ZF, SF and OF set, `pc <- valP` (R185 to R188). With
rB = RNONE nothing is written and the flags are still set (R185). -/
def opq (fn : Nibble) (rA rB : RegId) (valP : Word) (s : State) : State :=
  let a := s.readReg rA
  let b := s.readReg rB
  ((s.writeReg rB (alu fn a b)).setCC (newCC fn a b)).setPC valP

/-- `addq rA, rB`: rB + rA (R185). -/
def execAddq (rA rB : RegId) (s : State) : Host.Outcome State Fault Refusal :=
  .next (opq ADD rA rB (s.valP (.addq rA rB)) s)

/-- `subq rA, rB`: rB - rA (R186). -/
def execSubq (rA rB : RegId) (s : State) : Host.Outcome State Fault Refusal :=
  .next (opq SUB rA rB (s.valP (.subq rA rB)) s)

/-- `andq rA, rB`: rB & rA (R187). -/
def execAndq (rA rB : RegId) (s : State) : Host.Outcome State Fault Refusal :=
  .next (opq AND rA rB (s.valP (.andq rA rB)) s)

/-- `xorq rA, rB`: rB ^ rA (R188). -/
def execXorq (rA rB : RegId) (s : State) : Host.Outcome State Fault Refusal :=
  .next (opq XOR rA rB (s.valP (.xorq rA rB)) s)

end Sys2Proof.Machine
end

