-- ==== Sys2Proof/Machine/Control.lean ====
section
/-! DEFINITION. The sequential effects of jmp, jXX, call and ret (48_control_transfer.md R190 to R199). A target
outside memory is no fault of the transfer: the fetch at the target gets status ADR. The pc written beside a data-address
error is DEDUCED (log entry 8). -/

namespace Sys2Proof.Machine

/-- `if cond then pc <- valC else pc <- valP` (R190 to R196). -/
def jumpIf (fn : Nibble) (valC valP : Word) (s : State) : State :=
  s.setPC (if cond s.cc fn then valC else valP)

/-- `pc <- valC` (R190). -/
def execJmp (valC : Word) (s : State) : Host.Outcome State Fault Refusal :=
  .next (s.setPC valC)

/-- `if (SF ^ OF) || ZF then pc <- valC else pc <- valP` (R191). -/
def execJle (valC : Word) (s : State) : Host.Outcome State Fault Refusal :=
  .next (jumpIf condLE valC (s.valP (.jle valC)) s)

/-- `if SF ^ OF then pc <- valC else pc <- valP` (R192). -/
def execJl (valC : Word) (s : State) : Host.Outcome State Fault Refusal :=
  .next (jumpIf condL valC (s.valP (.jl valC)) s)

/-- `if ZF then pc <- valC else pc <- valP` (R193). -/
def execJe (valC : Word) (s : State) : Host.Outcome State Fault Refusal :=
  .next (jumpIf condE valC (s.valP (.je valC)) s)

/-- `if !ZF then pc <- valC else pc <- valP` (R194). -/
def execJne (valC : Word) (s : State) : Host.Outcome State Fault Refusal :=
  .next (jumpIf condNE valC (s.valP (.jne valC)) s)

/-- `if !(SF ^ OF) then pc <- valC else pc <- valP` (R195). -/
def execJge (valC : Word) (s : State) : Host.Outcome State Fault Refusal :=
  .next (jumpIf condGE valC (s.valP (.jge valC)) s)

/-- `if !(SF ^ OF) && !ZF then pc <- valC else pc <- valP` (R196). -/
def execJg (valC : Word) (s : State) : Host.Outcome State Fault Refusal :=
  .next (jumpIf condG valC (s.valP (.jg valC)) s)

/-- `sp' = x[RRSP] - 8; MemWrite(sp', 8, valP); x[RRSP] <- sp'; pc <- valC`; if the write is invalid no byte
is written, `x[RRSP] <- sp'` still, and the run stops with ADR (R197, R175 item 4). -/
def execCall (valC : Word) (s : State) : Host.Outcome State Fault Refusal :=
  let sp' := s.pushAddr
  .next (((s.store sp' (s.valP (.call valC))).writeReg RRSP sp').setPC valC)

/-- `(v, err) = MemRead(x[RRSP], 8); x[RRSP] <- x[RRSP] + 8; pc <- v`; if the read is invalid the run stops with
ADR, %rsp still incremented (R198, R175 item 4). -/
def execRet (s : State) : Host.Outcome State Fault Refusal :=
  let sp := s.popAddr
  .next (((s.writeReg RRSP (sp + 8)).setPC (s.memRead sp).1).retire (s.loadStat sp))

end Sys2Proof.Machine
end

