-- ==== Sys2Proof/Machine/Moves.lean ====
section
/-! DEFINITION. The sequential effects of rrmovq, cmovXX and irmovq (46_moves.md R175 to R184). Reads see the
state before the instruction (R175 item 3). -/

namespace Sys2Proof.Machine

/-- A register move made only if the condition holds (R177 to R183). -/
def moveIf (fn : Nibble) (rA rB : RegId) (valP : Word) (s : State) : State :=
  (if cond s.cc fn then s.writeReg rB (s.readReg rA) else s).setPC valP

/-- `x[rB] <- x[rA]; pc <- valP` (R177). -/
def execRrmovq (rA rB : RegId) (s : State) : Host.Outcome State Fault Refusal :=
  .next ((s.writeReg rB (s.readReg rA)).setPC (s.valP (.rrmovq rA rB)))

/-- `if (SF ^ OF) || ZF then x[rB] <- x[rA]; pc <- valP` (R178). -/
def execCmovle (rA rB : RegId) (s : State) : Host.Outcome State Fault Refusal :=
  .next (moveIf condLE rA rB (s.valP (.cmovle rA rB)) s)

/-- `if SF ^ OF then x[rB] <- x[rA]; pc <- valP` (R179). -/
def execCmovl (rA rB : RegId) (s : State) : Host.Outcome State Fault Refusal :=
  .next (moveIf condL rA rB (s.valP (.cmovl rA rB)) s)

/-- `if ZF then x[rB] <- x[rA]; pc <- valP` (R180). -/
def execCmove (rA rB : RegId) (s : State) : Host.Outcome State Fault Refusal :=
  .next (moveIf condE rA rB (s.valP (.cmove rA rB)) s)

/-- `if !ZF then x[rB] <- x[rA]; pc <- valP` (R181). -/
def execCmovne (rA rB : RegId) (s : State) : Host.Outcome State Fault Refusal :=
  .next (moveIf condNE rA rB (s.valP (.cmovne rA rB)) s)

/-- `if !(SF ^ OF) then x[rB] <- x[rA]; pc <- valP` (R182). -/
def execCmovge (rA rB : RegId) (s : State) : Host.Outcome State Fault Refusal :=
  .next (moveIf condGE rA rB (s.valP (.cmovge rA rB)) s)

/-- `if !(SF ^ OF) && !ZF then x[rB] <- x[rA]; pc <- valP` (R183). -/
def execCmovg (rA rB : RegId) (s : State) : Host.Outcome State Fault Refusal :=
  .next (moveIf condG rA rB (s.valP (.cmovg rA rB)) s)

/-- `x[rB] <- valC; pc <- valP` (R184). The rA nibble is ignored (R83). -/
def execIrmovq (unused rB : RegId) (valC : Word) (s : State) : Host.Outcome State Fault Refusal :=
  .next ((s.writeReg rB valC).setPC (s.valP (.irmovq unused rB valC)))

end Sys2Proof.Machine
end

