-- ==== Sys2Proof/Machine/Stack.lean ====
section
/-! DEFINITION. The sequential effects of pushq, popq, rmmovq, mrmovq, halt and nop (49_stack_memory_misc.md
R200 to R206). An invalid access reads or writes no byte and stops the run with ADR; the register writes are still
made, with 0 for the value read (R175 item 4); the pc written then is DEDUCED (log entry 8). -/

namespace Sys2Proof.Machine

/-- `v = x[rA]; sp' = x[RRSP] - 8; MemWrite(sp', 8, v); x[RRSP] <- sp'; pc <- valP` (R200). The rB nibble is
ignored (R83). -/
def execPushq (rA unused : RegId) (s : State) : Host.Outcome State Fault Refusal :=
  let sp' := s.pushAddr
  .next (((s.store sp' (s.readReg rA)).writeReg RRSP sp').setPC (s.valP (.pushq rA unused)))

/-- `(v, err) = MemRead(x[RRSP], 8); x[RRSP] <- x[RRSP] + 8; x[rA] <- v; pc <- valP`, the write of v applied
after the %rsp write (R201). -/
def execPopq (rA unused : RegId) (s : State) : Host.Outcome State Fault Refusal :=
  let sp := s.popAddr
  .next ((((s.writeReg RRSP (sp + 8)).writeReg rA (s.memRead sp).1).setPC
    (s.valP (.popq rA unused))).retire (s.loadStat sp))

/-- `ea = x[rB] + valC (mod 2^64); MemWrite(ea, 8, x[rA]); pc <- valP` (R202). -/
def execRmmovq (rA rB : RegId) (valC : Word) (s : State) : Host.Outcome State Fault Refusal :=
  .next ((s.store (s.effectiveAddr rB valC) (s.readReg rA)).setPC (s.valP (.rmmovq rA rB valC)))

/-- `ea = x[rB] + valC (mod 2^64); (v, err) = MemRead(ea, 8); x[rA] <- v; pc <- valP` (R203). -/
def execMrmovq (rA rB : RegId) (valC : Word) (s : State) : Host.Outcome State Fault Refusal :=
  let ea := s.effectiveAddr rB valC
  .next (((s.writeReg rA (s.memRead ea).1).setPC (s.valP (.mrmovq rA rB valC))).retire (s.loadStat ea))

/-- `RUN <- Stopped(HLT)`; no register, memory or CC change, and no pc change (R204). -/
def execHalt (s : State) : Host.Outcome State Fault Refusal :=
  .next (s.retire .HLT)

/-- `pc <- valP` (R205). -/
def execNop (s : State) : Host.Outcome State Fault Refusal :=
  .next (s.setPC (s.valP .nop))

end Sys2Proof.Machine
end

