-- ==== Sys2Proof/Machine/StraightLine.lean ====
section
/-! DEFINITION. The straight-line machine, the spec's sequential reference: one instruction at a time (00_scope.md
R21, 46_moves.md R175). Its state is RF, CC, MEM, RUN and the pc, held in F.predPC; latches D, E, M and W rest. -/

namespace Sys2Proof.Machine

/-- One sequential step (R175): fetch at pc as the Fetch stage does, stop on an ADR or INS fetch with nothing
else changed, else the instruction's sequential effect. -/
def straightLineStep (s : State) : Host.Outcome State Fault Refusal :=
  match s.run with
  | .stopped e => .fault (.stopped e)
  | .running =>
    match fetchInstr s s.pc with
    | .ok i _ => exec i s
    | .noFirstByte => .next (s.retire .ADR)
    | .invalidFirstByte _ => .next (s.retire .INS)
    | .tooShort _ => .next (s.retire .ADR)

end Sys2Proof.Machine
end

