-- ==== Sys2Proof/Machine/Step.lean ====
section
/-! DEFINITION. The step of the CORE: one cycle of the pipeline (40_pipeline_cycle.md R94, R97). -/

namespace Sys2Proof.Machine

/-- One step: one cycle while RUN = Running (R94); a stopped state has no step (R97). -/
def step (s : State) : Host.Outcome State Fault Refusal :=
  match s.run with
  | .running => .next (cycle s)
  | .stopped e => .fault (.stopped e)

/-- `s` with the instruction whose bits are `w` (those from `nbits` up being 0) stored at the address Fetch
reads in the next step, those of its bytes that lie in memory; nothing else is changed (log entry 4). -/
def State.withFetchWord (s : State) (nbits w : Nat) : State :=
  let a := (fetchPC s).toNat
  let bytes := bytesOfNat (min Config.maxInstrBytes (s.memCapacity - a)) (w % 2 ^ nbits)
  { s with mem := s.mem.writeBytes a bytes }

end Sys2Proof.Machine
end

