-- ==== Sys2Proof/Machine/Driver.lean ====
section
/-! DEFINITION. The driver's loop and the result of a run (40_pipeline_cycle.md R96 to R99, 60_exceptions.md R220,
70_reset_and_hazards.md R236). `CYCLE_LIMIT` is its argument (R10; log entry 9). -/

namespace Sys2Proof.Machine

/-- The result of a run: the final status, registers, CC and memory, and the cycle count; latches are no part of
it (R97, R99). -/
structure RunResult where
  status : Exc
  regs : RegFile
  cc : CC
  mem : Memory
  cycles : Nat
deriving DecidableEq, Repr

/-- Executes cycles until RUN is Stopped or the limit is reached; `cycles` counts those already executed. A run
that the limit cuts off has no result (R98, R220). -/
def driveFrom (cycles : Nat) : Nat → State → Option RunResult
  | limit, s =>
    match s.run with
    | .stopped e => some { status := e, regs := s.regs, cc := s.cc, mem := s.mem, cycles := cycles }
    | .running =>
      match limit with
      | 0 => none
      | limit + 1 => driveFrom (cycles + 1) limit (cycle s)

/-- The run from a state under a cycle limit (R98, R236). -/
def drive (limit : Nat) (s : State) : Option RunResult := driveFrom 0 limit s

end Sys2Proof.Machine
end

