-- ==== Sys2Proof/Machine/Loader.lean ====
section
/-! DEFINITION. The memory image the loader hands to the CORE (70_reset_and_hazards.md R232, R234, R236), from lines
already read as addresses and bytes. The text format is the loader's own and outside the CORE (00_scope.md R9; log entry 10). -/

namespace Sys2Proof.Machine

/-- A line of an object file: an address/data line, or none for a comment-only line (R234). -/
structure DataLine where
  address : Nat
  bytes : List Byte
deriving DecidableEq, Repr

/-- The load errors R234 names that a line's address and bytes can show, with the offending line's number. -/
inductive LoadError where
  /-- The line starts before the end of an earlier one. -/
  | outOfOrder (line : Nat)
  /-- The line goes past the memory's capacity. -/
  | exceedsCapacity (line : Nat)
deriving DecidableEq, Repr

/-- Places the bytes of each data line at consecutive addresses from its address, in the order written; the
first error ends the loading and there is no image (R232, R234). `line` numbers the head of the list, `free` is the
first address no earlier line has taken. -/
def loadLines (capacity : Nat) : Nat → Nat → Memory → List (Option DataLine) → Except LoadError Memory
  | _, _, image, [] => .ok image
  | line, free, image, none :: rest => loadLines capacity (line + 1) free image rest
  | line, free, image, some d :: rest =>
    if d.address < free then .error (.outOfOrder line)
    else if capacity < d.address + d.bytes.length then .error (.exceedsCapacity line)
    else loadLines capacity (line + 1) (d.address + d.bytes.length) (image.writeBytes d.address d.bytes) rest

/-- The memory image of an object file, or its load error: then there is no run (R232, R236). -/
def loadImage (capacity : Nat) (lines : List (Option DataLine)) : Except LoadError Memory :=
  loadLines capacity 1 0 [] lines

/-- The machine right after reset with a loaded image (R227, R236). -/
def bootImage (capacity : Nat) (lines : List (Option DataLine)) : Except LoadError State :=
  match loadImage capacity lines with
  | .ok image => .ok (State.boot capacity image)
  | .error e => .error e

end Sys2Proof.Machine
end

