-- ==== Sys2Proof/Machine/Settle.lean ====
section
/-! DEFINITION. The architectural state of a pipelined state: what RF, CC, MEM, RUN and the pc are once the
instructions in W, M, E and D have completed one after the other, oldest first, and nothing younger has entered. It
is the state the straight-line machine is in (40_pipeline_cycle.md R100, 60_exceptions.md R216); no step reads it. -/

namespace Sys2Proof.Machine

/-- Completes the instruction in W: its register writes (R156), the pc if it is a ret (R102 (b)), its status (R96). -/
def finishW (w : LatchW) (a : State) : State :=
  State.retire
    { a with
      regs := writebackRegs w a.regs
      F := if w.icode = .IRET then { predPC := w.valM } else a.F }
    w.stat

/-- Completes the instruction in M: its data access (R145 to R151), the pc if it is a mispredicted jump
(R102 (a)), then the rest as in W. -/
def finishM (m : LatchM) (a : State) : State :=
  finishW (wIn m a)
    { a with
      mem := mMem m a
      F := if m.icode = .IJXX ∧ m.Cnd = false then { predPC := m.valA } else a.F }

/-- Completes the instruction in E: its condition codes and condition (R135 to R141), then the rest as in M. -/
def finishE (e : LatchE) (a : State) : State :=
  finishM (mIn e a.cc) { a with cc := eCC e a.cc }

/-- Completes the instruction in D, its operands read from the register file the older instructions left
(R116 to R124 with nothing in flight to forward), then the rest as in E. -/
def finishD (d : LatchD) (a : State) : State := finishE (eInWith a.readReg d) a

/-- Goes on only if the run has not stopped (R97). -/
def State.andThen (a : State) (f : State → State) : State :=
  match a.run with
  | .running => f a
  | .stopped _ => a

/-- The state with latches D, E, M and W empty. -/
def State.drained (s : State) : State :=
  { s with D := LatchD.bubble, E := LatchE.bubble, M := LatchM.bubble, W := LatchW.bubble }

/-- The result of a stopped run has no pc (R97, R209): the pc of a stopped state is cleared (DESIGN CHOICE, log
entry 6). -/
def State.atStop (s : State) : State :=
  match s.run with
  | .running => s
  | .stopped _ => s.setPC 0

/-- The architectural state. The instruction in D is squashed behind a mispredicted jump in E (R168). -/
def settle (s : State) : State :=
  let a := s.drained.andThen (finishW s.W)
  let a := a.andThen (finishM s.M)
  let a := a.andThen (finishE s.E)
  (if mispredict s then a else a.andThen (finishD s.D)).atStop

/-- The instruction Fetch reads in this cycle is on the wrong path: the jump in D will turn out not to be taken
(R110, R159). The condition is tested on the codes the instruction in E leaves. -/
def wrongPath (s : State) : Bool := s.D.icode = .IJXX && !cond (eCC s.E s.cc) s.D.ifun

/-- This cycle issues the instruction Fetch reads: D latches it, it is on the right path, and no older
instruction stops the run. -/
abbrev issues (s : State) : Prop := modeD s = .NORMAL ∧ wrongPath s = false ∧ (settle s).run = .running

/-- The cycle is outside the self-modifying-code window: what Fetch delivers from the memory as it is, it would deliver
too once the stores in flight have been made. Only the bytes of the instruction fetched count, not those after it
(R100, R240; log entry 6). -/
abbrev fetchFresh (s : State) : Prop := fetchSlot (settle s) (fetchPC s) = fetchSlot s (fetchPC s)

/-- Latch M as the instructions now in M, E and D will have it in their Memory stage, each once the older ones have
completed: the three that can hold a store of R240 (log entry 6). -/
def memoryStages (s : State) : List LatchM :=
  let w := s.drained.andThen (finishW s.W)
  let m := w.andThen (finishM s.M)
  let e := m.andThen (finishE s.E)
  [s.M, mIn s.E m.cc, mIn (eInWith e.readReg s.D) e.cc]

/-- The instruction with this latch M is a store, and `x` is one of its eight bytes (R147, R149). -/
abbrev storesTo (m : LatchM) (x : Nat) : Prop :=
  isStore m.icode = true ∧ (memAddr m).toNat ≤ x ∧ x < (memAddr m).toNat + 8

end Sys2Proof.Machine
end

