-- ==== Sys2Proof/Safety.lean ====
section
/-! DEFINITION. What claims about the machine speak of: the invariants of the pipeline, and what counts as a safe
run. -/

namespace Sys2Proof.Machine

/-- The capacity is one R10 admits: `1 <= MEM_CAPACITY <= 2^64`. -/
abbrev capacityLegal (s : State) : Prop := 1 ≤ s.memCapacity ∧ s.memCapacity ≤ 2 ^ 64

/-- The memory is in canonical form and lists only valid addresses (R38, R47). -/
abbrev memoryLegal (s : State) : Prop := s.mem.wf ∧ ∀ c ∈ s.mem, c.1 < s.memCapacity

/-- The function code is one the instruction code has (R69, R70). -/
def ifunLegal (ic : Icode) (fn : Nibble) : Bool :=
  match ic with
  | .IOPQ => fn.toNat < 4
  | .IRRMOVQ | .IJXX => fn.toNat < 7
  | .IHALT | .INOP | .IIRMOVQ | .IRMMOVQ | .IMRMOVQ | .ICALL | .IRET | .IPUSHQ | .IPOPQ => fn == 0

/-- The status and code an instruction that has not yet left the Memory stage can carry together: HLT with a
halt and nothing else; a bubble, an ADR fetch and an invalid instruction with a no-op (R107, R108, R152). -/
def statFits (st : Stat) (ic : Icode) : Bool :=
  match st with
  | .BUB | .ADR | .INS => ic = .INOP
  | .HLT => ic = .IHALT
  | .AOK => ic ≠ .IHALT

/-- The same for latch W, where a data access may have turned AOK into ADR (R151, R152). -/
def statFitsW (st : Stat) (ic : Icode) : Bool :=
  match st with
  | .BUB | .INS => ic = .INOP
  | .HLT => ic = .IHALT
  | .ADR => ic = .INOP || isLoad ic || isStore ic
  | .AOK => ic ≠ .IHALT

/-- The destinations an instruction code can have: %rsp for the stack instructions, none for the codes R118 and
R119 give none (R118, R119, R141). -/
def destsFit (ic : Icode) (dE dM : RegId) : Bool :=
  match ic with
  | .IRRMOVQ | .IIRMOVQ | .IOPQ => dM = RNONE
  | .IPUSHQ | .ICALL | .IRET => dE = RRSP && dM = RNONE
  | .IPOPQ => dE = RRSP
  | .IMRMOVQ => dE = RNONE
  | .IHALT | .INOP | .IRMMOVQ | .IJXX => dE = RNONE && dM = RNONE

/-- Every latch holds a slot Fetch can have delivered (R108, R152). -/
abbrev slotsLegal (s : State) : Prop :=
  (ifunLegal s.D.icode s.D.ifun = true ∧ statFits s.D.stat s.D.icode = true) ∧
  (ifunLegal s.E.icode s.E.ifun = true ∧ statFits s.E.stat s.E.icode = true ∧
    destsFit s.E.icode s.E.dstE s.E.dstM = true) ∧
  (statFits s.M.stat s.M.icode = true ∧ destsFit s.M.icode s.M.dstE s.M.dstM = true) ∧
  (statFitsW s.W.stat s.W.icode = true ∧ destsFit s.W.icode s.W.dstE s.W.dstM = true)

/-- What the hazard unit keeps out of the pipeline: nothing follows a ret that is in E, M or W (R161, R171), nothing
follows a mispredicted jump that is in M (R168), and nothing follows an exceptional instruction that is in W into M
(R96, R166). -/
abbrev flowLegal (s : State) : Prop :=
  (s.E.icode = .IRET → s.D = LatchD.bubble) ∧
  (s.M.icode = .IRET → s.E = LatchE.bubble ∧ s.D = LatchD.bubble) ∧
  (s.W.icode = .IRET → s.M = LatchM.bubble ∧ s.E = LatchE.bubble ∧ s.D = LatchD.bubble) ∧
  (s.M.icode = .IJXX → s.M.Cnd = false → s.E = LatchE.bubble ∧ s.D = LatchD.bubble) ∧
  (s.W.stat.isExc = true → s.M = LatchM.bubble)

/-- The pipeline is empty: D, E, M and W hold bubbles, as right after reset (R231). -/
abbrev pipelineEmpty (s : State) : Prop :=
  s.D = LatchD.bubble ∧ s.E = LatchE.bubble ∧ s.M = LatchM.bubble ∧ s.W = LatchW.bubble

/-- A safe state: the run has not stopped with an address error or an invalid instruction. -/
abbrev safe (s : State) : Prop := s.run ≠ .stopped .ADR ∧ s.run ≠ .stopped .INS

/-- At most `k` cycles: a stopped state has no further one (R94, R97). -/
def cycles : Nat → State → State
  | 0, s => s
  | k + 1, s => cycles k (s.andThen cycle)

/-- At most `k` steps of the straight-line machine: a stopped state has no further one (R175). -/
def straightLineRun : Nat → State → State
  | 0, s => s
  | k + 1, s =>
    match straightLineStep s with
    | .next t => straightLineRun k t
    | .fault _ => s
    | .refused _ => s

/-- The bytes of `i` stand in memory at `pc`, all of them at valid addresses (R67, R106). -/
abbrev instrAt (s : State) (pc : Word) (i : Instr) : Prop :=
  pc.toNat + i.length ≤ s.memCapacity ∧ s.mem.readBytes pc.toNat i.length = encode i

/-- Latches D, E, M and W and the capacity are as before: no sequential effect touches them (R175). -/
abbrev latchesKept (s t : State) : Prop :=
  t.D = s.D ∧ t.E = s.E ∧ t.M = s.M ∧ t.W = s.W ∧ t.memCapacity = s.memCapacity

end Sys2Proof.Machine
end

