-- ==== Sys2Proof/Certificates/Slice0/Obligations.lean ====
section
/-! DEFINITION. The statements for the provers. Each docstring names the rule of spec/ its statement formalises. -/

section

open Sys2Proof Sys2Proof.Machine

/-! ### Encoding (30_encoding.md) -/

/-- Every instruction, with every operand at every value its encoding admits, decodes from its own encoding,
and the bytes after it are left over (R67, R72 to R75, R83). -/
def Obligations.DecodeEncode : Prop :=
  ∀ (i : Instr) (rest : List Byte), decode (encode i ++ rest) = .ok i rest

/-- The decoder reads no bytes but those of the encoding it answers: no two strings mean one instruction (R81, R85). -/
def Obligations.DecodeReadsOnlyEncodings : Prop :=
  ∀ (bs rest : List Byte) (i : Instr), decode bs = .ok i rest → bs = encode i ++ rest

/-- The opcode map: the 27 valid first bytes, each with its instruction, format and length; every other first byte is
an invalid instruction (R81). -/
def Obligations.OpcodeMapRows : Prop :=
  (∀ rest : List Byte,
    decode (0x00 :: rest) = .ok .halt rest ∧
    decode (0x10 :: rest) = .ok .nop rest ∧
    decode (0x90 :: rest) = .ok .ret rest) ∧
  (∀ (rA rB : RegId) (rest : List Byte),
    decode (0x20 :: byteOf rA rB :: rest) = .ok (.rrmovq rA rB) rest ∧
    decode (0x21 :: byteOf rA rB :: rest) = .ok (.cmovle rA rB) rest ∧
    decode (0x22 :: byteOf rA rB :: rest) = .ok (.cmovl rA rB) rest ∧
    decode (0x23 :: byteOf rA rB :: rest) = .ok (.cmove rA rB) rest ∧
    decode (0x24 :: byteOf rA rB :: rest) = .ok (.cmovne rA rB) rest ∧
    decode (0x25 :: byteOf rA rB :: rest) = .ok (.cmovge rA rB) rest ∧
    decode (0x26 :: byteOf rA rB :: rest) = .ok (.cmovg rA rB) rest ∧
    decode (0x60 :: byteOf rA rB :: rest) = .ok (.addq rA rB) rest ∧
    decode (0x61 :: byteOf rA rB :: rest) = .ok (.subq rA rB) rest ∧
    decode (0x62 :: byteOf rA rB :: rest) = .ok (.andq rA rB) rest ∧
    decode (0x63 :: byteOf rA rB :: rest) = .ok (.xorq rA rB) rest ∧
    decode (0xA0 :: byteOf rA rB :: rest) = .ok (.pushq rA rB) rest ∧
    decode (0xB0 :: byteOf rA rB :: rest) = .ok (.popq rA rB) rest) ∧
  (∀ (rA rB : RegId) (v : Word) (rest : List Byte),
    decode (0x30 :: byteOf rA rB :: (bytesOfWord v ++ rest)) = .ok (.irmovq rA rB v) rest ∧
    decode (0x40 :: byteOf rA rB :: (bytesOfWord v ++ rest)) = .ok (.rmmovq rA rB v) rest ∧
    decode (0x50 :: byteOf rA rB :: (bytesOfWord v ++ rest)) = .ok (.mrmovq rA rB v) rest) ∧
  (∀ (v : Word) (rest : List Byte),
    decode (0x70 :: (bytesOfWord v ++ rest)) = .ok (.jmp v) rest ∧
    decode (0x71 :: (bytesOfWord v ++ rest)) = .ok (.jle v) rest ∧
    decode (0x72 :: (bytesOfWord v ++ rest)) = .ok (.jl v) rest ∧
    decode (0x73 :: (bytesOfWord v ++ rest)) = .ok (.je v) rest ∧
    decode (0x74 :: (bytesOfWord v ++ rest)) = .ok (.jne v) rest ∧
    decode (0x75 :: (bytesOfWord v ++ rest)) = .ok (.jge v) rest ∧
    decode (0x76 :: (bytesOfWord v ++ rest)) = .ok (.jg v) rest ∧
    decode (0x80 :: (bytesOfWord v ++ rest)) = .ok (.call v) rest) ∧
  (∀ (b : Byte) (rest : List Byte),
    decode (b :: rest) = .invalidFirstByte b ↔
      b ∉ ([0x00, 0x10, 0x20, 0x21, 0x22, 0x23, 0x24, 0x25, 0x26, 0x30, 0x40, 0x50, 0x60, 0x61, 0x62, 0x63, 0x70,
        0x71, 0x72, 0x73, 0x74, 0x75, 0x76, 0x80, 0x90, 0xA0, 0xB0] : List Byte))

/-- The length of an instruction, 1, 2, 9 or 10 bytes, and the next sequential address Fetch computes from it; an
invalid instruction has length 1 (R76). -/
def Obligations.InstructionLength : Prop :=
  (∀ (i : Instr) (pc : Word),
    (encode i).length = 1 + (needRegids i.icode).toNat + 8 * (needValC i.icode).toNat ∧
    (encode i).length ∈ [1, 2, 9, 10] ∧
    (instrSlot i pc).valP = pc + BitVec.ofNat 64 (encode i).length) ∧
  (∀ (s : State) (pc : Word) (b : Byte),
    fetchInstr s pc = .invalidFirstByte b → (fetchSlot s pc).valP = pc + 1)

/-- Words written out from the spec's encodings decode to the instructions they stand for (R80, and the example of each
instruction rule). -/
def Obligations.SpecWordsDecode : Prop :=
  decode [0x30, 0xF2, 0x0A, 0, 0, 0, 0, 0, 0, 0] = .ok (.irmovq RNONE RRDX 10) [] ∧
  decode [0x20, 0x03] = .ok (.rrmovq RRAX RRBX) [] ∧
  decode [0x24, 0x12] = .ok (.cmovne RRCX RRDX) [] ∧
  decode [0x70, 0x20, 0, 0, 0, 0, 0, 0, 0] = .ok (.jmp 0x20) [] ∧
  decode [0xA0, 0x4F] = .ok (.pushq RRSP RNONE) []

/-! ### Registers and memory (10_state.md, 20_memory.md) -/

/-- The sentinel reads as 0 and a write to it changes nothing; every other register reads as last written (R28). -/
def Obligations.RegisterReadWrite : Prop :=
  (∀ (rf : RegFile) (v : Word), RegFile.read rf RNONE = 0 ∧ RegFile.write rf RNONE v = rf) ∧
  (∀ (rf : RegFile) (i j : RegId) (v : Word), i ≠ RNONE →
    RegFile.read (RegFile.write rf i v) j = if j = i then v else RegFile.read rf j)

/-- A valid store at any address, aligned or not, sets byte a+k to v[8k+7:8k] and no other byte; a load there then
yields v (R16, R52, R53). -/
def Obligations.StoreThenLoad : Prop :=
  ∀ (s : State) (a v : Word), s.mem.wf → a.toNat + 8 ≤ s.memCapacity →
    (s.memWrite a v).2 = false ∧
    (∀ x, (s.memWrite a v).1.read x =
      if a.toNat ≤ x ∧ x < a.toNat + 8 then wordByte v (x - a.toNat) else s.mem.read x) ∧
    State.memRead { s with mem := (s.memWrite a v).1 } a = (v, false)

/-- An access is valid exactly when all its bytes lie below the capacity, with no wrap-around; an invalid one reads
and writes no byte, yields 0, and the instruction in M gets status ADR (R55). -/
def Obligations.InvalidAccess : Prop :=
  (∀ (s : State) (a : Word) (n : Nat), s.validAccess a n = true ↔ a.toNat + n ≤ s.memCapacity) ∧
  (∀ (s : State) (a v : Word), s.memCapacity < a.toNat + 8 →
    s.memRead a = (0, true) ∧ s.memWrite a v = (s.mem, true)) ∧
  (∀ (m : LatchM) (s : State), (isLoad m.icode = true ∨ isStore m.icode = true) →
    s.memCapacity < (memAddr m).toNat + 8 →
    mStat m s = .ADR ∧ mMem m s = s.mem ∧ mValM m s = 0)

/-! ### Flags and conditions (43_execute.md) -/

/-- The new condition codes, OF both by the formulas of the rule and as overflow of the signed result (R135). -/
def Obligations.ArithmeticFlags : Prop :=
  (∀ (fn : Nibble) (a b : Word),
    (newCC fn a b).ZF = (alu fn a b == 0) ∧ (newCC fn a b).SF = (alu fn a b).getLsbD 63) ∧
  (∀ a b : Word,
    (newCC ADD a b).OF = ((a.msb == b.msb) && ((b + a).msb != a.msb)) ∧
    (newCC SUB a b).OF = ((a.msb != b.msb) && ((b - a).msb != b.msb)) ∧
    (newCC AND a b).OF = false ∧
    (newCC XOR a b).OF = false ∧
    (newCC ADD a b).OF = decide (b.toInt + a.toInt < -2 ^ 63 ∨ 2 ^ 63 ≤ b.toInt + a.toInt) ∧
    (newCC SUB a b).OF = decide (b.toInt - a.toInt < -2 ^ 63 ∨ 2 ^ 63 ≤ b.toInt - a.toInt))

/-- The condition tests, and what they say of the operands of the last subq: the signed comparisons of b with a (R138). -/
def Obligations.ConditionTests : Prop :=
  (∀ cc : CC,
    Machine.cond cc 0 = true ∧
    Machine.cond cc 1 = ((cc.SF ^^ cc.OF) || cc.ZF) ∧
    Machine.cond cc 2 = (cc.SF ^^ cc.OF) ∧
    Machine.cond cc 3 = cc.ZF ∧
    Machine.cond cc 4 = !cc.ZF ∧
    Machine.cond cc 5 = !(cc.SF ^^ cc.OF) ∧
    Machine.cond cc 6 = (!(cc.SF ^^ cc.OF) && !cc.ZF)) ∧
  (∀ a b : Word,
    Machine.cond (newCC SUB a b) 1 = decide (b.toInt ≤ a.toInt) ∧
    Machine.cond (newCC SUB a b) 2 = decide (b.toInt < a.toInt) ∧
    Machine.cond (newCC SUB a b) 3 = decide (b = a) ∧
    Machine.cond (newCC SUB a b) 4 = decide (b ≠ a) ∧
    Machine.cond (newCC SUB a b) 5 = decide (a.toInt ≤ b.toInt) ∧
    Machine.cond (newCC SUB a b) 6 = decide (a.toInt < b.toInt))

/-! ### What each instruction does: its sequential effect, with its frame (46_moves.md to 49_stack_memory_misc.md).
The frame of each: every register but the destination, the condition codes unless written, every byte of memory but the
stored ones, RUN, and latches D, E, M and W are as before. -/

/-- rrmovq completes in every state: `x[rB] <- x[rA]; pc <- valP`, nothing written where rB is RNONE (R177). -/
def Obligations.RrmovqResult : Prop :=
  ∀ (s : State) (rA rB : RegId), ∃ t, exec (.rrmovq rA rB) s = .next t ∧
    (∀ id, t.readReg id = if id = rB ∧ rB ≠ RNONE then s.readReg rA else s.readReg id) ∧
    t.pc = s.pc + 2 ∧ t.cc = s.cc ∧ (∀ x, t.mem.read x = s.mem.read x) ∧ t.run = s.run ∧ latchesKept s t

/-- The six conditional moves complete in every state; each moves exactly if its condition holds (R178 to R183). -/
def Obligations.ConditionalMoveResults : Prop :=
  ∀ (s : State) (rA rB : RegId), ∀ p ∈
    [(Instr.cmovle rA rB, (s.cc.SF ^^ s.cc.OF) || s.cc.ZF),
     (Instr.cmovl rA rB, s.cc.SF ^^ s.cc.OF),
     (Instr.cmove rA rB, s.cc.ZF),
     (Instr.cmovne rA rB, !s.cc.ZF),
     (Instr.cmovge rA rB, !(s.cc.SF ^^ s.cc.OF)),
     (Instr.cmovg rA rB, !(s.cc.SF ^^ s.cc.OF) && !s.cc.ZF)],
    ∃ t, exec p.1 s = .next t ∧
      (∀ id, t.readReg id = if p.2 = true ∧ id = rB ∧ rB ≠ RNONE then s.readReg rA else s.readReg id) ∧
      t.pc = s.pc + 2 ∧ t.cc = s.cc ∧ (∀ x, t.mem.read x = s.mem.read x) ∧ t.run = s.run ∧ latchesKept s t

/-- irmovq completes in every state, whatever its unused nibble holds: `x[rB] <- valC; pc <- valP` (R184, R83). -/
def Obligations.IrmovqResult : Prop :=
  ∀ (s : State) (unused rB : RegId) (v : Word), ∃ t, exec (.irmovq unused rB v) s = .next t ∧
    (∀ id, t.readReg id = if id = rB ∧ rB ≠ RNONE then v else s.readReg id) ∧
    t.pc = s.pc + 10 ∧ t.cc = s.cc ∧ (∀ x, t.mem.read x = s.mem.read x) ∧ t.run = s.run ∧ latchesKept s t

/-- addq, subq, andq and xorq complete in every state: `x[rB] <- b op a`, with ZF and SF from the result and OF the
overflow of the signed result; with rB = RNONE only the flags are written (R185 to R189). -/
def Obligations.ArithmeticResults : Prop :=
  ∀ (s : State) (rA rB : RegId) (a b : Word), a = s.readReg rA → b = s.readReg rB → ∀ p ∈
    [(Instr.addq rA rB, b + a, decide (b.toInt + a.toInt < -2 ^ 63 ∨ 2 ^ 63 ≤ b.toInt + a.toInt)),
     (Instr.subq rA rB, b - a, decide (b.toInt - a.toInt < -2 ^ 63 ∨ 2 ^ 63 ≤ b.toInt - a.toInt)),
     (Instr.andq rA rB, b &&& a, false),
     (Instr.xorq rA rB, b ^^^ a, false)],
    ∃ t, exec p.1 s = .next t ∧
      (∀ id, t.readReg id = if id = rB ∧ rB ≠ RNONE then p.2.1 else s.readReg id) ∧
      t.cc = { ZF := decide (p.2.1 = 0), SF := p.2.1.getLsbD 63, OF := p.2.2 } ∧
      t.pc = s.pc + 2 ∧ (∀ x, t.mem.read x = s.mem.read x) ∧ t.run = s.run ∧ latchesKept s t

/-- The seven jumps complete in every state: to the constant if the condition holds, else to the next instruction;
nothing but the pc changes (R190 to R196). -/
def Obligations.JumpResults : Prop :=
  ∀ (s : State) (v : Word), ∀ p ∈
    [(Instr.jmp v, true),
     (Instr.jle v, (s.cc.SF ^^ s.cc.OF) || s.cc.ZF),
     (Instr.jl v, s.cc.SF ^^ s.cc.OF),
     (Instr.je v, s.cc.ZF),
     (Instr.jne v, !s.cc.ZF),
     (Instr.jge v, !(s.cc.SF ^^ s.cc.OF)),
     (Instr.jg v, !(s.cc.SF ^^ s.cc.OF) && !s.cc.ZF)],
    ∃ t, exec p.1 s = .next t ∧ t.pc = (if p.2 = true then v else s.pc + 9) ∧
      (∀ id, t.readReg id = s.readReg id) ∧ t.cc = s.cc ∧ (∀ x, t.mem.read x = s.mem.read x) ∧ t.run = s.run ∧
      latchesKept s t

/-- call, where its stack slot is valid: the return address stored at x[RRSP] - 8, %rsp there, pc the constant (R197). -/
def Obligations.CallResult : Prop :=
  ∀ (s : State) (v : Word), s.mem.wf → s.pushAddr.toNat + 8 ≤ s.memCapacity → ∃ t, exec (.call v) s = .next t ∧
    (∀ x, t.mem.read x =
      if s.pushAddr.toNat ≤ x ∧ x < s.pushAddr.toNat + 8 then wordByte (s.pc + 9) (x - s.pushAddr.toNat)
      else s.mem.read x) ∧
    (∀ id, t.readReg id = if id = RRSP then s.readReg RRSP - 8 else s.readReg id) ∧
    t.pc = v ∧ t.cc = s.cc ∧ t.run = s.run ∧ latchesKept s t

/-- ret, where its stack slot is valid: pc the word at x[RRSP], %rsp + 8 (R198). -/
def Obligations.RetResult : Prop :=
  ∀ s : State, s.popAddr.toNat + 8 ≤ s.memCapacity → ∃ t, exec .ret s = .next t ∧
    t.pc = s.mem.readWord s.popAddr.toNat ∧
    (∀ id, t.readReg id = if id = RRSP then s.readReg RRSP + 8 else s.readReg id) ∧
    t.cc = s.cc ∧ (∀ x, t.mem.read x = s.mem.read x) ∧ t.run = s.run ∧ latchesKept s t

/-- pushq, where its stack slot is valid: the old value of rA stored at x[RRSP] - 8, also for rA = %rsp, and %rsp
there (R200). -/
def Obligations.PushqResult : Prop :=
  ∀ (s : State) (rA unused : RegId), s.mem.wf → s.pushAddr.toNat + 8 ≤ s.memCapacity →
    ∃ t, exec (.pushq rA unused) s = .next t ∧
      (∀ x, t.mem.read x =
        if s.pushAddr.toNat ≤ x ∧ x < s.pushAddr.toNat + 8 then wordByte (s.readReg rA) (x - s.pushAddr.toNat)
        else s.mem.read x) ∧
      (∀ id, t.readReg id = if id = RRSP then s.readReg RRSP - 8 else s.readReg id) ∧
      t.pc = s.pc + 2 ∧ t.cc = s.cc ∧ t.run = s.run ∧ latchesKept s t

/-- popq, where its stack slot is valid: rA gets the word at x[RRSP] and %rsp is increased by 8, unless rA is %rsp,
which then gets the word (R201). -/
def Obligations.PopqResult : Prop :=
  ∀ (s : State) (rA unused : RegId), s.popAddr.toNat + 8 ≤ s.memCapacity →
    ∃ t, exec (.popq rA unused) s = .next t ∧
      (∀ id, t.readReg id =
        if id = rA ∧ rA ≠ RNONE then s.mem.readWord s.popAddr.toNat
        else if id = RRSP then s.readReg RRSP + 8 else s.readReg id) ∧
      t.pc = s.pc + 2 ∧ t.cc = s.cc ∧ (∀ x, t.mem.read x = s.mem.read x) ∧ t.run = s.run ∧ latchesKept s t

/-- rmmovq, where its effective address is valid: x[rA] stored there, no register written (R202). -/
def Obligations.RmmovqResult : Prop :=
  ∀ (s : State) (rA rB : RegId) (v : Word), s.mem.wf → (s.effectiveAddr rB v).toNat + 8 ≤ s.memCapacity →
    ∃ t, exec (.rmmovq rA rB v) s = .next t ∧
      (∀ x, t.mem.read x =
        if (s.effectiveAddr rB v).toNat ≤ x ∧ x < (s.effectiveAddr rB v).toNat + 8 then
          wordByte (s.readReg rA) (x - (s.effectiveAddr rB v).toNat)
        else s.mem.read x) ∧
      (∀ id, t.readReg id = s.readReg id) ∧
      t.pc = s.pc + 10 ∧ t.cc = s.cc ∧ t.run = s.run ∧ latchesKept s t

/-- mrmovq, where its effective address is valid: rA gets the word there (R203). -/
def Obligations.MrmovqResult : Prop :=
  ∀ (s : State) (rA rB : RegId) (v : Word), (s.effectiveAddr rB v).toNat + 8 ≤ s.memCapacity →
    ∃ t, exec (.mrmovq rA rB v) s = .next t ∧
      (∀ id, t.readReg id =
        if id = rA ∧ rA ≠ RNONE then s.mem.readWord (s.effectiveAddr rB v).toNat else s.readReg id) ∧
      t.pc = s.pc + 10 ∧ t.cc = s.cc ∧ (∀ x, t.mem.read x = s.mem.read x) ∧ t.run = s.run ∧ latchesKept s t

/-- halt stops the run with HLT and changes nothing else; nop changes nothing but the pc (R204, R205). -/
def Obligations.HaltAndNopResults : Prop :=
  ∀ s : State,
    (∃ t, exec .halt s = .next t ∧ t.run = .stopped .HLT ∧
      (∀ id, t.readReg id = s.readReg id) ∧ t.cc = s.cc ∧ (∀ x, t.mem.read x = s.mem.read x) ∧ t.pc = s.pc ∧
      latchesKept s t) ∧
    (∃ t, exec .nop s = .next t ∧ t.pc = s.pc + 1 ∧
      (∀ id, t.readReg id = s.readReg id) ∧ t.cc = s.cc ∧ (∀ x, t.mem.read x = s.mem.read x) ∧ t.run = s.run ∧
      latchesKept s t)

/-- Where a data access stops the run: outside memory the six instructions that make one read or write no byte, keep
the condition codes, still write their registers, with 0 for the value read, and the run stops with ADR (R175 item 4,
R211). -/
def Obligations.DataAddressErrors : Prop :=
  (∀ (s : State) (v : Word) (rA unused : RegId), s.memCapacity < s.pushAddr.toNat + 8 →
    ∀ i ∈ [Instr.call v, Instr.pushq rA unused], ∃ t, exec i s = .next t ∧ t.run = .stopped .ADR ∧
      (∀ id, t.readReg id = if id = RRSP then s.readReg RRSP - 8 else s.readReg id) ∧
      t.cc = s.cc ∧ (∀ x, t.mem.read x = s.mem.read x) ∧ latchesKept s t) ∧
  (∀ (s : State) (rA unused : RegId), s.memCapacity < s.popAddr.toNat + 8 →
    ∀ p ∈ [(Instr.ret, RNONE), (Instr.popq rA unused, rA)], ∃ t, exec p.1 s = .next t ∧ t.run = .stopped .ADR ∧
      (∀ id, t.readReg id =
        if id = p.2 ∧ p.2 ≠ RNONE then 0 else if id = RRSP then s.readReg RRSP + 8 else s.readReg id) ∧
      t.cc = s.cc ∧ (∀ x, t.mem.read x = s.mem.read x) ∧ latchesKept s t) ∧
  (∀ (s : State) (rA rB : RegId) (v : Word), s.memCapacity < (s.effectiveAddr rB v).toNat + 8 →
    ∀ p ∈ [(Instr.rmmovq rA rB v, RNONE), (Instr.mrmovq rA rB v, rA)], ∃ t, exec p.1 s = .next t ∧
      t.run = .stopped .ADR ∧
      (∀ id, t.readReg id = if id = p.2 ∧ p.2 ≠ RNONE then 0 else s.readReg id) ∧
      t.cc = s.cc ∧ (∀ x, t.mem.read x = s.mem.read x) ∧ latchesKept s t)

/-- Every instruction keeps the memory's canonical form and the capacity. -/
def Obligations.ExecKeepsMemoryLegal : Prop :=
  ∀ (i : Instr) (s t : State), exec i s = .next t → memoryLegal s → memoryLegal t ∧ t.memCapacity = s.memCapacity

/-! ### The straight-line machine (46_moves.md R175) -/

/-- A sequential step at bytes that encode an instruction performs that instruction's sequential effect. -/
def Obligations.StraightLineRunsDecoded : Prop :=
  ∀ (s : State) (i : Instr), s.run = .running → instrAt s s.pc i → straightLineStep s = exec i s

/-- A sequential step whose fetch fails stops the run and changes nothing else: ADR where the first byte is
unreadable, INS where it is none of the 27, ADR where the rest of the instruction is not all readable. -/
def Obligations.StraightLineFetchErrors : Prop :=
  ∀ s : State, s.run = .running →
    (s.memCapacity ≤ s.pc.toNat → straightLineStep s = .next { s with run := .stopped .ADR }) ∧
    (s.pc.toNat < s.memCapacity → (∀ i : Instr, i.byte0 ≠ s.mem.read s.pc.toNat) →
      straightLineStep s = .next { s with run := .stopped .INS }) ∧
    (∀ i : Instr, s.pc.toNat < s.memCapacity → i.byte0 = s.mem.read s.pc.toNat →
      s.memCapacity < s.pc.toNat + i.length → straightLineStep s = .next { s with run := .stopped .ADR })

/-! ### Fetch (41_fetch.md) -/

/-- PC selection; an unconditional jump is never selected by (a), and every jump is predicted taken (R102). -/
def Obligations.PCSelection : Prop :=
  (∀ s : State,
    (s.M.icode = .IJXX → s.M.Cnd = false → fetchPC s = s.M.valA) ∧
    (¬(s.M.icode = .IJXX ∧ s.M.Cnd = false) → s.W.icode = .IRET → fetchPC s = s.W.valM) ∧
    (¬(s.M.icode = .IJXX ∧ s.M.Cnd = false) → s.W.icode ≠ .IRET → fetchPC s = s.F.predPC)) ∧
  (∀ (e : LatchE) (cc : CC), e.icode = .IJXX → e.ifun = 0 → (mIn e cc).Cnd = true) ∧
  (∀ (s : State) (pc : Word), (fetchSlot s pc).icode = .IJXX →
    predictPC (fetchSlot s pc) pc = (fetchSlot s pc).valC)

/-- The status of a fetch at any address, in the order of priority of the rule (R107). -/
def Obligations.FetchStatus : Prop :=
  ∀ (s : State) (pc : Word),
    (s.memCapacity ≤ pc.toNat → (fetchSlot s pc).stat = .ADR) ∧
    (pc.toNat < s.memCapacity → (∀ i : Instr, i.byte0 ≠ s.mem.read pc.toNat) → (fetchSlot s pc).stat = .INS) ∧
    (∀ i : Instr, pc.toNat < s.memCapacity → i.byte0 = s.mem.read pc.toNat →
      (fetchSlot s pc).stat =
        if s.memCapacity < pc.toNat + i.length then .ADR
        else if s.mem.read pc.toNat = 0x00 then .HLT else .AOK)

/-- The fields of an erroneous fetch are those of a no-op, the status alone recording the error; the fields of any
other fetch are those of the instruction read (R108). -/
def Obligations.FetchedFields : Prop :=
  ∀ (s : State) (pc : Word),
    ((fetchSlot s pc).stat = .ADR ∨ (fetchSlot s pc).stat = .INS →
      (fetchSlot s pc).icode = .INOP ∧ (fetchSlot s pc).ifun = 0 ∧ (fetchSlot s pc).rA = RNONE ∧
      (fetchSlot s pc).rB = RNONE ∧ (fetchSlot s pc).valC = 0) ∧
    ((fetchSlot s pc).stat ≠ .ADR → (fetchSlot s pc).stat ≠ .INS → ∃ i rest, fetchInstr s pc = .ok i rest ∧
      (fetchSlot s pc).icode = i.icode ∧ (fetchSlot s pc).ifun = i.ifun ∧ (fetchSlot s pc).rA = i.rA ∧
      (fetchSlot s pc).rB = i.rB ∧ (fetchSlot s pc).valC = i.valC)

/-- A step whose fetch address holds the encoding of an instruction puts that instruction's fields into D and its
predicted successor into F, wherever those latches take their input (R106, R107, R110, R112). -/
def Obligations.StepFetchesDecoded : Prop :=
  ∀ (s : State) (i : Instr), s.run = .running → instrAt s (fetchPC s) i → ∃ t, step s = .next t ∧
    (modeD s = .NORMAL →
      t.D = { stat := if i = .halt then .HLT else .AOK, icode := i.icode, ifun := i.ifun, rA := i.rA, rB := i.rB,
              valC := i.valC, valP := fetchPC s + BitVec.ofNat 64 (encode i).length }) ∧
    (modeF s = .NORMAL →
      t.F.predPC = if i = .halt then fetchPC s
        else if i.icode = .IJXX ∨ i.icode = .ICALL then i.valC
        else fetchPC s + BitVec.ofNat 64 (encode i).length)

/-- After an exceptional fetch, as long as nothing redirects it and memory is as it was, Fetch reads the same slot
again (R110, R111). -/
def Obligations.ExceptionalFetchRepeats : Prop :=
  ∀ s t : State, step s = .next t → (dIn s).stat.isExc = true → modeF s = .NORMAL → modeD s = .NORMAL →
    fetchPC t = t.F.predPC → t.mem = s.mem → t.D = dIn s ∧ fetchPC t = fetchPC s ∧ dIn t = t.D

/-! ### The cycle and its stages (40_pipeline_cycle.md, 42_decode.md to 45_writeback_control.md) -/

/-- Which stage changes what in a step: registers only Writeback's destinations, the condition codes only for an OPq in
E with no exceptional status in M or W, memory only the bytes of a store in M, RUN only by an exceptional status in W,
the capacity never (R29, R34, R96, R136, R154). -/
def Obligations.StepFrame : Prop :=
  ∀ s t : State, step s = .next t →
    (∀ id, id ≠ s.W.dstE → id ≠ s.W.dstM → t.readReg id = s.readReg id) ∧
    (s.E.icode ≠ .IOPQ ∨ (mStat s.M s).isExc = true ∨ s.W.stat.isExc = true → t.cc = s.cc) ∧
    (isStore s.M.icode = false → ∀ x, t.mem.read x = s.mem.read x) ∧
    (s.mem.wf → ∀ x, ¬((memAddr s.M).toNat ≤ x ∧ x < (memAddr s.M).toNat + 8) → t.mem.read x = s.mem.read x) ∧
    (s.W.stat.isExc = false → t.run = .running) ∧
    t.memCapacity = s.memCapacity

/-- E carries the source ids Decode computes, and they affect nothing: a cycle from a state with any other ids there
leaves the same state (R41). -/
def Obligations.SourceIdsUnread : Prop :=
  (∀ s : State, (eIn s).srcA = srcA s.D.icode s.D.rA ∧ (eIn s).srcB = srcB s.D.icode s.D.rB) ∧
  (∀ (s : State) (x y : RegId), step { s with E := { s.E with srcA := x, srcB := y } } = step s)

/-- The commit modes in every combination of the hazard conditions (R172). -/
def Obligations.ControlModes : Prop :=
  ∀ s : State,
    (loaduse s = false → mispredict s = false → retInFlight s = false →
      modeF s = .NORMAL ∧ modeD s = .NORMAL ∧ modeE s = .NORMAL) ∧
    (loaduse s = true → retInFlight s = false → modeF s = .STALL ∧ modeD s = .STALL ∧ modeE s = .BUBBLE) ∧
    (mispredict s = true → retInFlight s = false → modeF s = .NORMAL ∧ modeD s = .BUBBLE ∧ modeE s = .BUBBLE) ∧
    (retInFlight s = true → loaduse s = false → mispredict s = false →
      modeF s = .STALL ∧ modeD s = .BUBBLE ∧ modeE s = .NORMAL) ∧
    (mispredict s = true → retInFlight s = true → modeF s = .STALL ∧ modeD s = .BUBBLE ∧ modeE s = .BUBBLE) ∧
    (loaduse s = true → retInFlight s = true → modeF s = .STALL ∧ modeD s = .STALL ∧ modeE s = .BUBBLE) ∧
    (modeM s = if excMW s = true then .BUBBLE else .NORMAL) ∧
    modeW s = .NORMAL

/-- A misprediction and a load-use hazard never hold in one cycle, and in a legal pipeline Fetch never has both a
mispredicted jump in M and a return in W (R170, R103). -/
def Obligations.HazardsExclude : Prop :=
  (∀ s : State, ¬(mispredict s = true ∧ loaduse s = true)) ∧
  (∀ s : State, flowLegal s → ¬((s.M.icode = .IJXX ∧ s.M.Cnd = false) ∧ s.W.icode = .IRET))

/-- A source operand Decode forwards is the value the register holds once the older instructions, those in W, M and E,
have retired, unless a load in E will write that register (R126, R121, R122). -/
def Obligations.ForwardedOperandIsArchitectural : Prop :=
  ∀ (s a : State) (src : RegId), slotsLegal s →
    a = ((s.drained.andThen (finishW s.W)).andThen (finishM s.M)).andThen (finishE s.E) →
    a.run = .running →
    ¬((s.E.icode = .IMRMOVQ ∨ s.E.icode = .IPOPQ) ∧ s.E.dstM = src ∧ src ≠ RNONE) →
    operandValue s src = a.readReg src

/-- A load-use hazard costs one cycle: F and D keep their contents, E gets a bubble, and in the next cycle the hazard
is gone and the dependent instruction takes the loaded value from the Memory stage (R169). -/
def Obligations.LoadUseCostsOneCycle : Prop :=
  ∀ s : State, s.run = .running → loaduse s = true → excMW s = false → ∃ t, step s = .next t ∧
    t.F = s.F ∧ t.D = s.D ∧ t.E = LatchE.bubble ∧ loaduse t = false ∧
    (srcA t.D.icode t.D.rA = s.E.dstM → operandValue t (srcA t.D.icode t.D.rA) = mValM t.M t) ∧
    (srcB t.D.icode t.D.rB = s.E.dstM → operandValue t (srcB t.D.icode t.D.rB) = mValM t.M t)

/-- A jump in E whose condition is false squashes the two younger instructions, and the next fetch is at the jump's
fall-through address, which E.valA carries (R168). -/
def Obligations.MispredictionSquashesTwo : Prop :=
  ∀ s : State, s.run = .running → mispredict s = true → excMW s = false → ∃ t, step s = .next t ∧
    t.D = LatchD.bubble ∧ t.E = LatchE.bubble ∧ t.M.icode = .IJXX ∧ fetchPC t = s.E.valA

/-- A ret in D, with no misprediction and no load-use hazard, holds F and keeps D empty for three cycles; then it is in
W and Fetch reads the popped address (R171). -/
def Obligations.ReturnCostsThreeCycles : Prop :=
  ∀ s : State, s.run = .running → s.D.icode = .IRET → loaduse s = false → mispredict s = false →
    (cycles 3 s).run = .running →
    (∀ k ∈ [1, 2, 3], (cycles k s).F = s.F ∧ (cycles k s).D = LatchD.bubble) ∧
    (cycles 1 s).E.icode = .IRET ∧ (cycles 2 s).M.icode = .IRET ∧ (cycles 3 s).W.icode = .IRET ∧
    fetchPC (cycles 3 s) = (cycles 3 s).W.valM

/-- While an exceptional status is in M or W, no younger instruction has an effect: the condition codes are kept and
the instruction in E does not enter M. In the cycle it is in W, its register writes are made, the run stops with its
status, and neither the condition codes nor a byte of memory changes (R96, R136, R166). -/
def Obligations.ExceptionContainment : Prop :=
  (∀ s t : State, step s = .next t → excMW s = true → t.cc = s.cc ∧ t.M = LatchM.bubble) ∧
  (∀ (s t : State) (e : Exc), flowLegal s → step s = .next t → s.W.stat.exc? = some e →
    t.run = .stopped e ∧ t.regs = writebackRegs s.W s.regs ∧ t.cc = s.cc ∧ (∀ x, t.mem.read x = s.mem.read x))

/-- A stopped state has no step; its result is its registers, memory, condition codes and status, whatever its latches
hold (R97). That `step` answers a fault there is the model's way of saying that there is no step (DESIGN CHOICE, log
entry 12). -/
def Obligations.StoppedIsFinal : Prop :=
  ∀ (s : State) (e : Exc), s.run = .stopped e →
    step s = .fault (.stopped e) ∧
    (∀ limit, drive limit s = some { status := e, regs := s.regs, cc := s.cc, mem := s.mem, cycles := 0 }) ∧
    (∀ (limit : Nat) (d : LatchD) (e' : LatchE) (m : LatchM) (w : LatchW) (f : LatchF),
      drive limit { s with F := f, D := d, E := e', M := m, W := w } = drive limit s)

/-! ### Invariants -/

/-- Every step keeps the memory's canonical form, its addresses below the capacity, and the capacity. The canonical form
is the model's own representation of MEM (DEDUCED, log entry 11); that only addresses below the capacity hold bytes
and that the capacity is fixed is R38 and R47. -/
def Obligations.StepKeepsMemoryLegal : Prop :=
  ∀ s t : State, step s = .next t → capacityLegal s ∧ memoryLegal s →
    (capacityLegal t ∧ memoryLegal t) ∧ t.memCapacity = s.memCapacity

/-- Every step keeps the latches holding slots Fetch can have delivered: a legal function code, a status that goes with
the code, and the destinations of the code (R108, R118, R119, R141, R152). -/
def Obligations.StepKeepsSlotsLegal : Prop :=
  ∀ s t : State, step s = .next t → slotsLegal s → slotsLegal t

/-- Every step keeps the pipeline free of what the hazard unit squashes: nothing follows a ret in E, M or W, a
mispredicted jump in M, or an exceptional instruction in W (R166, R168, R171). -/
def Obligations.StepKeepsFlowLegal : Prop :=
  ∀ s t : State, step s = .next t → flowLegal s → flowLegal t

/-- The invariants hold right after reset, whose capacity is the model's choice (log entry 1), and after a boot with any
legal image, in the model's canonical form (log entry 11). -/
def Obligations.ResetLegal : Prop :=
  (capacityLegal State.reset ∧ memoryLegal State.reset ∧ slotsLegal State.reset ∧ flowLegal State.reset) ∧
  (∀ (capacity : Nat) (image : Memory), 1 ≤ capacity → capacity ≤ 2 ^ 64 → image.wf →
    (∀ c ∈ image, c.1 < capacity) →
    capacityLegal (State.boot capacity image) ∧ memoryLegal (State.boot capacity image) ∧
    slotsLegal (State.boot capacity image) ∧ flowLegal (State.boot capacity image))

/-! ### The pipeline and the sequential effects (00_scope.md R21, 40_pipeline_cycle.md R100, 60_exceptions.md R216) -/

/-- The stage signals of an instruction, completed one after the other with nothing else in flight, compute its
sequential effect, the predicted address standing for the pc until a jump or ret corrects it (R116 to R157, R177 to
R206). The completion is the model's (log entry 6); the equality takes in the pc after a failed data access, which the
spec leaves out and the model DEDUCES (log entry 8). -/
def Obligations.StagesComputeSequentialEffect : Prop :=
  ∀ (i : Instr) (a : State),
    exec i a = .next (finishD (instrSlot i a.pc) (a.setPC (predictPC (instrSlot i a.pc) a.pc)))

/-- A STEP RUNS THE DECODED INSTRUCTION. If the fetch address holds the encoding of i and this cycle issues it, the
step's architectural state is the one exec i leaves from the architectural state before, whose pc is the fetch address;
a stopped state has no pc. The architectural state is the model's `settle` (log entries 5, 6). -/
def Obligations.StepRealisesExec : Prop :=
  ∀ (s : State) (i : Instr), s.run = .running → slotsLegal s → flowLegal s → instrAt s (fetchPC s) i → issues s →
    (settle s).pc = fetchPC s ∧
    ∃ t u, step s = .next t ∧ exec i (settle s) = .next u ∧ settle t = u.atStop

/-- A step that issues, with no store in flight that changes what it fetches, is one step of the straight-line machine,
failed fetches too (R100, R175, R240). A store to bytes that are not the fetched instruction's, those right after it
among them, is no such store (`NoStoreInFlightIsFresh`). The comparison goes through `settle` (log entries 5, 6). -/
def Obligations.StepRefinesStraightLine : Prop :=
  ∀ s : State, s.run = .running → slotsLegal s → flowLegal s → issues s → fetchFresh s →
    ∃ t u, step s = .next t ∧ straightLineStep (settle s) = .next u ∧ settle t = u.atStop

/-- A step that does not issue (a stall, a bubble, a wrong-path fetch, a fetch past an exceptional instruction) leaves
the architectural state, the model's `settle` (log entries 5, 6), as it is. -/
def Obligations.StepWithoutIssueKeepsState : Prop :=
  ∀ s : State, s.run = .running → slotsLegal s → flowLegal s → ¬issues s →
    ∃ t, step s = .next t ∧ settle t = settle s

/-- Sequential equivalence (R100, which the spec marks as derived): a run from a booted image that stops with a status,
and issues no instruction that a store in flight changes (R240), stops as the straight-line machine does, with the
same registers, memory and condition codes. -/
def Obligations.RunMatchesStraightLine : Prop :=
  ∀ (capacity : Nat) (image : Memory) (n : Nat) (e : Exc),
    (∀ k, k < n → issues (cycles k (State.boot capacity image)) → fetchFresh (cycles k (State.boot capacity image))) →
    (cycles n (State.boot capacity image)).run = .stopped e →
    ∃ m, (straightLineRun m (State.boot capacity image)).run = .stopped e ∧
      (straightLineRun m (State.boot capacity image)).regs = (cycles n (State.boot capacity image)).regs ∧
      (straightLineRun m (State.boot capacity image)).mem = (cycles n (State.boot capacity image)).mem ∧
      (straightLineRun m (State.boot capacity image)).cc = (cycles n (State.boot capacity image)).cc

/-- Exceptions are precise (R216, whose conclusion the spec marks as derived). A run from a booted image that stops, and
issues no instruction that a store in flight changes (R240), ends in the state of the straight-line machine: every
older instruction executed, then the exceptional instruction, whose own step changes neither the condition codes nor
memory (R211), and nothing younger. The same holds of a run from any legal state of the pipeline, compared with the
straight-line machine from its architectural state (`settle`, log entries 5, 6). -/
def Obligations.ExceptionsArePrecise : Prop :=
  (∀ (capacity : Nat) (image : Memory) (n : Nat) (e : Exc),
    (∀ k, k < n → issues (cycles k (State.boot capacity image)) → fetchFresh (cycles k (State.boot capacity image))) →
    (cycles n (State.boot capacity image)).run = .stopped e →
    ∃ (m : Nat) (older final : State), straightLineRun m (State.boot capacity image) = older ∧ older.run = .running ∧
      straightLineStep older = .next final ∧ final.run = .stopped e ∧ final.cc = older.cc ∧ final.mem = older.mem ∧
      (cycles n (State.boot capacity image)).regs = final.regs ∧
      (cycles n (State.boot capacity image)).cc = final.cc ∧
      (cycles n (State.boot capacity image)).mem = final.mem) ∧
  (∀ (s : State) (n : Nat) (e : Exc), s.run = .running → slotsLegal s → flowLegal s →
    (∀ k, k < n → issues (cycles k s) → fetchFresh (cycles k s)) → (cycles n s).run = .stopped e →
    ∃ m, (straightLineRun m (settle s)).run = .stopped e ∧
      (cycles n s).regs = (straightLineRun m (settle s)).regs ∧
      (cycles n s).cc = (straightLineRun m (settle s)).cc ∧
      (cycles n s).mem = (straightLineRun m (settle s)).mem)

/-- A fetch is fresh when no store in flight writes to the bytes of what it fetches, those from f_pc up to its valP
(R109); so it is with no store in D, E or M at all (R240). `fetchFresh` and `memoryStages` rest on the model's
`settle` (log entry 6), and Fetch reads through the window of log entry 13. -/
def Obligations.NoStoreInFlightIsFresh : Prop :=
  (∀ s : State, s.mem.wf →
    (∀ m ∈ memoryStages s, ∀ x, (fetchPC s).toNat ≤ x →
      x < (fetchPC s).toNat + ((fetchSlot s (fetchPC s)).valP - fetchPC s).toNat → ¬storesTo m x) →
    fetchFresh s) ∧
  (∀ s : State, isStore s.D.icode = false → isStore s.E.icode = false → isStore s.M.icode = false → fetchFresh s)

/-- One instruction through an empty pipeline, cycle by cycle: its condition codes are committed in its third cycle, its
memory write in its fourth, its registers and the run status in its fifth; and Fetch reads its successor in the next
cycle, after a jump not taken in the fourth, after a ret in the fifth (R231, R242, whose cycle counts the spec marks as
derived). `exec` on the pipeline's State is the model's device (log entry 5), and where the data access fails, the pc of
`exec` is the one the model DEDUCES (log entry 8). -/
def Obligations.EmptyPipelineRunsExec : Prop :=
  ∀ (s : State) (i : Instr), s.run = .running → pipelineEmpty s → instrAt s s.pc i → ∃ u, exec i s = .next u ∧
    (cycles 3 s).cc = u.cc ∧
    (cycles 4 s).mem = u.mem ∧
    (cycles 5 s).regs = u.regs ∧
    (cycles 5 s).run = u.run ∧
    (i.icode ≠ .IRET → ¬(i.icode = .IJXX ∧ Machine.cond s.cc i.ifun = false) → fetchPC (cycles 1 s) = u.pc) ∧
    (i.icode = .IJXX → Machine.cond s.cc i.ifun = false → fetchPC (cycles 3 s) = u.pc) ∧
    (i.icode = .IRET → fetchPC (cycles 4 s) = u.pc)

/-! ### Reset, loading and the driver (70_reset_and_hazards.md) -/

/-- The state after reset, every piece of it (R46): every register 0, CC = (1, 0, 0), the loaded image with every byte
not loaded 0, Running, first fetch at 0, every latch field at its bubble value. -/
def Obligations.ResetState : Prop :=
  (∀ (capacity : Nat) (image : Memory),
    (∀ id, (State.boot capacity image).readReg id = 0) ∧
    (State.boot capacity image).cc = { ZF := true, SF := false, OF := false } ∧
    (State.boot capacity image).mem = image ∧
    (∀ a, (∀ c ∈ image, c.1 ≠ a) → (State.boot capacity image).mem.read a = 0) ∧
    (State.boot capacity image).run = .running ∧
    (State.boot capacity image).F.predPC = 0 ∧
    fetchPC (State.boot capacity image) = 0 ∧
    (State.boot capacity image).D =
      { stat := .BUB, icode := .INOP, ifun := 0, rA := 0xF, rB := 0xF, valC := 0, valP := 0 } ∧
    (State.boot capacity image).E =
      { stat := .BUB, icode := .INOP, ifun := 0, valC := 0, valA := 0, valB := 0, dstE := 0xF, dstM := 0xF,
        srcA := 0xF, srcB := 0xF } ∧
    (State.boot capacity image).M =
      { stat := .BUB, icode := .INOP, Cnd := false, valE := 0, valA := 0, dstE := 0xF, dstM := 0xF } ∧
    (State.boot capacity image).W =
      { stat := .BUB, icode := .INOP, valE := 0, valM := 0, dstE := 0xF, dstM := 0xF }) ∧
  State.reset = State.boot State.reset.memCapacity []

/-- A loaded image is in canonical form, lies below the capacity, holds the bytes of each data line in the order written
from the line's address, and 0 at every address no line gives (R232, R234). The canonical form is the model's
representation (log entry 11), and the lines are taken as already read (log entry 10). -/
def Obligations.LoadedImage : Prop :=
  ∀ (capacity : Nat) (lines : List (Option DataLine)) (image : Memory), loadImage capacity lines = .ok image →
    (image.wf ∧ ∀ c ∈ image, c.1 < capacity) ∧
    (∀ d, some d ∈ lines → ∀ k (h : k < d.bytes.length), image.read (d.address + k) = d.bytes[k]) ∧
    (∀ a, (∀ d, some d ∈ lines → ¬(d.address ≤ a ∧ a < d.address + d.bytes.length)) → image.read a = 0)

/-- A run's result is that of its first stopped state, and its cycle count the number of cycles up to and including the
stopping one (R99); a run that the limit cuts off has no result (R98), the limit being an argument of the model's driver
(log entry 9). -/
def Obligations.DriverCountsCycles : Prop :=
  ∀ (limit : Nat) (s : State),
    (∀ r, drive limit s = some r →
      r.cycles ≤ limit ∧ (cycles r.cycles s).run = .stopped r.status ∧
      r.regs = (cycles r.cycles s).regs ∧ r.cc = (cycles r.cycles s).cc ∧ r.mem = (cycles r.cycles s).mem ∧
      ∀ k, k < r.cycles → (cycles k s).run = .running) ∧
    (drive limit s = none → ∀ k, k ≤ limit → (cycles k s).run = .running)

/-- The program that consists of halt alone takes five cycles and leaves every register 0 (R229, R243). -/
def Obligations.HaltAloneTakesFiveCycles : Prop :=
  ∀ capacity, 1 ≤ capacity → ∃ r, drive 5 (State.boot capacity []) = some r ∧ r.status = .HLT ∧ r.cycles = 5 ∧
    (∀ id, RegFile.read r.regs id = 0) ∧ (∀ limit, limit < 5 → drive limit (State.boot capacity []) = none)

end
end

