-- ==== Sys2Proof/Laws/State.lean ====
section
/-! SUPPORT. One lemma per field per update of the state, each true by rfl, so that no proof unfolds a record update. -/

namespace Sys2Proof.Machine

/-! ### State.writeReg -/

@[simp] theorem State.writeReg_regs (s : State) (id : RegId) (v : Word) : (s.writeReg id v).regs = s.regs.write id v := rfl
@[simp] theorem State.writeReg_cc (s : State) (id : RegId) (v : Word) : (s.writeReg id v).cc = s.cc := rfl
@[simp] theorem State.writeReg_mem (s : State) (id : RegId) (v : Word) : (s.writeReg id v).mem = s.mem := rfl
@[simp] theorem State.writeReg_run (s : State) (id : RegId) (v : Word) : (s.writeReg id v).run = s.run := rfl
@[simp] theorem State.writeReg_F (s : State) (id : RegId) (v : Word) : (s.writeReg id v).F = s.F := rfl
@[simp] theorem State.writeReg_D (s : State) (id : RegId) (v : Word) : (s.writeReg id v).D = s.D := rfl
@[simp] theorem State.writeReg_E (s : State) (id : RegId) (v : Word) : (s.writeReg id v).E = s.E := rfl
@[simp] theorem State.writeReg_M (s : State) (id : RegId) (v : Word) : (s.writeReg id v).M = s.M := rfl
@[simp] theorem State.writeReg_W (s : State) (id : RegId) (v : Word) : (s.writeReg id v).W = s.W := rfl
@[simp] theorem State.writeReg_memCapacity (s : State) (id : RegId) (v : Word) : (s.writeReg id v).memCapacity = s.memCapacity := rfl

/-! ### State.setPC -/

@[simp] theorem State.setPC_regs (s : State) (t : Word) : (s.setPC t).regs = s.regs := rfl
@[simp] theorem State.setPC_cc (s : State) (t : Word) : (s.setPC t).cc = s.cc := rfl
@[simp] theorem State.setPC_mem (s : State) (t : Word) : (s.setPC t).mem = s.mem := rfl
@[simp] theorem State.setPC_run (s : State) (t : Word) : (s.setPC t).run = s.run := rfl
@[simp] theorem State.setPC_F (s : State) (t : Word) : (s.setPC t).F = { predPC := t } := rfl
@[simp] theorem State.setPC_D (s : State) (t : Word) : (s.setPC t).D = s.D := rfl
@[simp] theorem State.setPC_E (s : State) (t : Word) : (s.setPC t).E = s.E := rfl
@[simp] theorem State.setPC_M (s : State) (t : Word) : (s.setPC t).M = s.M := rfl
@[simp] theorem State.setPC_W (s : State) (t : Word) : (s.setPC t).W = s.W := rfl
@[simp] theorem State.setPC_memCapacity (s : State) (t : Word) : (s.setPC t).memCapacity = s.memCapacity := rfl

/-! ### State.setCC -/

@[simp] theorem State.setCC_regs (s : State) (c : CC) : (s.setCC c).regs = s.regs := rfl
@[simp] theorem State.setCC_cc (s : State) (c : CC) : (s.setCC c).cc = c := rfl
@[simp] theorem State.setCC_mem (s : State) (c : CC) : (s.setCC c).mem = s.mem := rfl
@[simp] theorem State.setCC_run (s : State) (c : CC) : (s.setCC c).run = s.run := rfl
@[simp] theorem State.setCC_F (s : State) (c : CC) : (s.setCC c).F = s.F := rfl
@[simp] theorem State.setCC_D (s : State) (c : CC) : (s.setCC c).D = s.D := rfl
@[simp] theorem State.setCC_E (s : State) (c : CC) : (s.setCC c).E = s.E := rfl
@[simp] theorem State.setCC_M (s : State) (c : CC) : (s.setCC c).M = s.M := rfl
@[simp] theorem State.setCC_W (s : State) (c : CC) : (s.setCC c).W = s.W := rfl
@[simp] theorem State.setCC_memCapacity (s : State) (c : CC) : (s.setCC c).memCapacity = s.memCapacity := rfl

/-! ### State.retire -/

@[simp] theorem State.retire_regs (s : State) (st : Stat) : (s.retire st).regs = s.regs := rfl
@[simp] theorem State.retire_cc (s : State) (st : Stat) : (s.retire st).cc = s.cc := rfl
@[simp] theorem State.retire_mem (s : State) (st : Stat) : (s.retire st).mem = s.mem := rfl
@[simp] theorem State.retire_run (s : State) (st : Stat) : (s.retire st).run = s.run.afterRetire st := rfl
@[simp] theorem State.retire_F (s : State) (st : Stat) : (s.retire st).F = s.F := rfl
@[simp] theorem State.retire_D (s : State) (st : Stat) : (s.retire st).D = s.D := rfl
@[simp] theorem State.retire_E (s : State) (st : Stat) : (s.retire st).E = s.E := rfl
@[simp] theorem State.retire_M (s : State) (st : Stat) : (s.retire st).M = s.M := rfl
@[simp] theorem State.retire_W (s : State) (st : Stat) : (s.retire st).W = s.W := rfl
@[simp] theorem State.retire_memCapacity (s : State) (st : Stat) : (s.retire st).memCapacity = s.memCapacity := rfl

/-! ### State.drained -/

@[simp] theorem State.drained_regs (s : State) : (s.drained).regs = s.regs := rfl
@[simp] theorem State.drained_cc (s : State) : (s.drained).cc = s.cc := rfl
@[simp] theorem State.drained_mem (s : State) : (s.drained).mem = s.mem := rfl
@[simp] theorem State.drained_run (s : State) : (s.drained).run = s.run := rfl
@[simp] theorem State.drained_F (s : State) : (s.drained).F = s.F := rfl
@[simp] theorem State.drained_D (s : State) : (s.drained).D = LatchD.bubble := rfl
@[simp] theorem State.drained_E (s : State) : (s.drained).E = LatchE.bubble := rfl
@[simp] theorem State.drained_M (s : State) : (s.drained).M = LatchM.bubble := rfl
@[simp] theorem State.drained_W (s : State) : (s.drained).W = LatchW.bubble := rfl
@[simp] theorem State.drained_memCapacity (s : State) : (s.drained).memCapacity = s.memCapacity := rfl

/-! ### cycle (R94) -/

@[simp] theorem cycle_regs (s : State) : (cycle s).regs = writebackRegs s.W s.regs := rfl
@[simp] theorem cycle_cc (s : State) : (cycle s).cc = if setCC s then eCC s.E s.cc else s.cc := rfl
@[simp] theorem cycle_mem (s : State) : (cycle s).mem = mMem s.M s := rfl
@[simp] theorem cycle_run (s : State) : (cycle s).run = s.run.afterRetire s.W.stat := rfl
@[simp] theorem cycle_F (s : State) : (cycle s).F = commit (modeF s) (fIn s) s.F LatchF.bubble := rfl
@[simp] theorem cycle_D (s : State) : (cycle s).D = commit (modeD s) (dIn s) s.D LatchD.bubble := rfl
@[simp] theorem cycle_E (s : State) : (cycle s).E = commit (modeE s) (eIn s) s.E LatchE.bubble := rfl
@[simp] theorem cycle_M (s : State) : (cycle s).M = commit (modeM s) (mIn s.E s.cc) s.M LatchM.bubble := rfl
@[simp] theorem cycle_W (s : State) : (cycle s).W = wIn s.M s := rfl
@[simp] theorem cycle_memCapacity (s : State) : (cycle s).memCapacity = s.memCapacity := rfl

/-! ### Reads of an updated state -/

@[simp] theorem State.writeReg_pc (s : State) (id : RegId) (v : Word) : (s.writeReg id v).pc = s.pc := rfl
@[simp] theorem State.setPC_pc (s : State) (t : Word) : (s.setPC t).pc = t := rfl
@[simp] theorem State.setCC_pc (s : State) (c : CC) : (s.setCC c).pc = s.pc := rfl
@[simp] theorem State.retire_pc (s : State) (st : Stat) : (s.retire st).pc = s.pc := rfl
@[simp] theorem State.setPC_readReg (s : State) (t : Word) (id : RegId) : (s.setPC t).readReg id = s.readReg id := rfl
@[simp] theorem State.setCC_readReg (s : State) (c : CC) (id : RegId) : (s.setCC c).readReg id = s.readReg id := rfl
@[simp] theorem State.retire_readReg (s : State) (st : Stat) (id : RegId) : (s.retire st).readReg id = s.readReg id := rfl

/-! ### Commit (R90) -/

@[simp] theorem commit_NORMAL {α : Type} (input output bubble : α) : commit .NORMAL input output bubble = input := rfl
@[simp] theorem commit_STALL {α : Type} (input output bubble : α) : commit .STALL input output bubble = output := rfl
@[simp] theorem commit_BUBBLE {α : Type} (input output bubble : α) : commit .BUBBLE input output bubble = bubble := rfl

/-! ### Retiring (R23, R36, R96) -/

@[simp] theorem RunStatus.afterRetire_BUB (r : RunStatus) : r.afterRetire .BUB = r := rfl
@[simp] theorem RunStatus.afterRetire_AOK (r : RunStatus) : r.afterRetire .AOK = r := rfl
@[simp] theorem RunStatus.afterRetire_HLT (r : RunStatus) : r.afterRetire .HLT = .stopped .HLT := rfl
@[simp] theorem RunStatus.afterRetire_ADR (r : RunStatus) : r.afterRetire .ADR = .stopped .ADR := rfl
@[simp] theorem RunStatus.afterRetire_INS (r : RunStatus) : r.afterRetire .INS = .stopped .INS := rfl

/-- Everything a retiring status can do: an exceptional one stops the run with it, any other leaves RUN as it is. -/
theorem RunStatus.afterRetire_cases (r : RunStatus) (st : Stat) :
    (st.isExc = false ∧ r.afterRetire st = r) ∨
      ∃ e : Exc, st = e.stat ∧ st.isExc = true ∧ r.afterRetire st = .stopped e := by
  cases st
  · exact .inl ⟨rfl, rfl⟩
  · exact .inl ⟨rfl, rfl⟩
  · exact .inr ⟨.HLT, rfl, rfl, rfl⟩
  · exact .inr ⟨.ADR, rfl, rfl, rfl⟩
  · exact .inr ⟨.INS, rfl, rfl, rfl⟩

end Sys2Proof.Machine
end

