-- ==== Sys2Proof/Laws/Cycle.lean ====
section
/-! SUPPORT. What a step can do: its inversion, and how cycles add up (40_pipeline_cycle.md R94, R97). -/

namespace Sys2Proof.Machine

/-- A step answers a next state exactly from a running state, and then it is one cycle. -/
theorem step_eq_next_iff (s t : State) : step s = .next t ↔ s.run = .running ∧ t = cycle s := by
  cases h : s.run <;> simp [step, h, eq_comm]

/-- A stopped state has no further cycle. -/
theorem cycles_of_stopped {s : State} {e : Exc} (h : s.run = .stopped e) (k : Nat) : cycles k s = s := by
  induction k with
  | zero => rfl
  | succ k ih =>
    have : s.andThen cycle = s := by simp [State.andThen, h]
    rw [cycles, this]; exact ih

/-- Cycles add up. -/
theorem cycles_add (j k : Nat) (s : State) : cycles (j + k) s = cycles k (cycles j s) := by
  induction j generalizing s with
  | zero => simp [cycles]
  | succ j ih => rw [Nat.add_right_comm, cycles, ih]; rfl

end Sys2Proof.Machine
end

