-- ==== Sys2Proof/Laws/Words.lean ====
section
/-! SUPPORT. The byte-order helpers: splitting a word or a byte and joining it again is the identity (00_scope.md
R16, 30_encoding.md R77, R78). -/

namespace Sys2Proof

/-- A word joined from its own eight bytes is the word (R16). -/
@[simp] theorem wordOfBytes_wordByte (v : Word) :
    wordOfBytes (wordByte v 0) (wordByte v 1) (wordByte v 2) (wordByte v 3)
      (wordByte v 4) (wordByte v 5) (wordByte v 6) (wordByte v 7) = v := by
  unfold wordOfBytes wordByte
  iterate 7 rw [BitVec.extractLsb'_append_extractLsb'_eq_extractLsb' (by rfl)]
  exact BitVec.extractLsb'_eq_self

/-- The bytes of a word joined from eight bytes are those bytes (R16, R52). -/
@[simp] theorem bytesOfWord_wordOfBytes (b0 b1 b2 b3 b4 b5 b6 b7 : Byte) :
    bytesOfWord (wordOfBytes b0 b1 b2 b3 b4 b5 b6 b7) = [b0, b1, b2, b3, b4, b5, b6, b7] := by
  have low {n : Nat} (hi : BitVec n) (lo : Byte) (k : Nat) :
      (hi ++ lo).extractLsb' (8 * (k + 1)) 8 = hi.extractLsb' (8 * k) 8 := by
    rw [BitVec.extractLsb'_append_eq_of_le (by omega)]
    congr 1
  have last {n : Nat} (hi : BitVec n) (lo : Byte) : (hi ++ lo).extractLsb' (8 * 0) 8 = lo :=
    BitVec.extractLsb'_append_eq_right
  simp only [bytesOfWord, wordByte, wordOfBytes, low, last, List.cons.injEq, true_and, and_true]
  exact BitVec.extractLsb'_eq_self

/-- The high nibble of a byte joined from two nibbles (R13, R77). -/
@[simp] theorem hiNibble_byteOf (hi lo : Nibble) : hiNibble (byteOf hi lo) = hi := by
  revert hi lo; decide

/-- The low nibble of a byte joined from two nibbles (R13, R77). -/
@[simp] theorem loNibble_byteOf (hi lo : Nibble) : loNibble (byteOf hi lo) = lo := by
  revert hi lo; decide

/-- A byte joined from its own nibbles is the byte (R13). -/
@[simp] theorem byteOf_nibbles (b : Byte) : byteOf (hiNibble b) (loNibble b) = b := by
  revert b; decide

/-- The constant word of an encoding, and what follows it (R78). -/
@[simp] theorem takeWord_bytesOfWord (v : Word) (rest : List Byte) :
    takeWord (bytesOfWord v ++ rest) = some (v, rest) := by
  simp [takeWord, bytesOfWord]

/-- Everything `takeWord` can do: it takes the eight bytes of the word it answers (R78). -/
theorem takeWord_eq_some {bs rest : List Byte} {v : Word} (h : takeWord bs = some (v, rest)) :
    bs = bytesOfWord v ++ rest := by
  match bs, h with
  | b0 :: b1 :: b2 :: b3 :: b4 :: b5 :: b6 :: b7 :: tail, h =>
    simp only [takeWord, Option.some.injEq, Prod.mk.injEq] at h
    obtain ⟨rfl, rfl⟩ := h
    simp

end Sys2Proof
end

