-- ==== Sys2Proof/Laws/Encoding.lean ====
section
/-! SUPPORT. The bytes of each instruction, its first byte as the numeral of the opcode map (30_encoding.md R72 to R75,
R81). -/

namespace Sys2Proof

/-! ### First bytes (R67, R81) -/

@[simp] theorem byte0_halt : Instr.halt.byte0 = 0x00 := show byteOf 0x0 0x0 = 0x00 by decide
@[simp] theorem byte0_nop : Instr.nop.byte0 = 0x10 := show byteOf 0x1 0x0 = 0x10 by decide
@[simp] theorem byte0_rrmovq (rA rB : RegId) : (Instr.rrmovq rA rB).byte0 = 0x20 := show byteOf 0x2 0x0 = 0x20 by decide
@[simp] theorem byte0_cmovle (rA rB : RegId) : (Instr.cmovle rA rB).byte0 = 0x21 := show byteOf 0x2 0x1 = 0x21 by decide
@[simp] theorem byte0_cmovl (rA rB : RegId) : (Instr.cmovl rA rB).byte0 = 0x22 := show byteOf 0x2 0x2 = 0x22 by decide
@[simp] theorem byte0_cmove (rA rB : RegId) : (Instr.cmove rA rB).byte0 = 0x23 := show byteOf 0x2 0x3 = 0x23 by decide
@[simp] theorem byte0_cmovne (rA rB : RegId) : (Instr.cmovne rA rB).byte0 = 0x24 := show byteOf 0x2 0x4 = 0x24 by decide
@[simp] theorem byte0_cmovge (rA rB : RegId) : (Instr.cmovge rA rB).byte0 = 0x25 := show byteOf 0x2 0x5 = 0x25 by decide
@[simp] theorem byte0_cmovg (rA rB : RegId) : (Instr.cmovg rA rB).byte0 = 0x26 := show byteOf 0x2 0x6 = 0x26 by decide
@[simp] theorem byte0_irmovq (rA rB : RegId) (v : Word) : (Instr.irmovq rA rB v).byte0 = 0x30 := show byteOf 0x3 0x0 = 0x30 by decide
@[simp] theorem byte0_rmmovq (rA rB : RegId) (v : Word) : (Instr.rmmovq rA rB v).byte0 = 0x40 := show byteOf 0x4 0x0 = 0x40 by decide
@[simp] theorem byte0_mrmovq (rA rB : RegId) (v : Word) : (Instr.mrmovq rA rB v).byte0 = 0x50 := show byteOf 0x5 0x0 = 0x50 by decide
@[simp] theorem byte0_addq (rA rB : RegId) : (Instr.addq rA rB).byte0 = 0x60 := show byteOf 0x6 0x0 = 0x60 by decide
@[simp] theorem byte0_subq (rA rB : RegId) : (Instr.subq rA rB).byte0 = 0x61 := show byteOf 0x6 0x1 = 0x61 by decide
@[simp] theorem byte0_andq (rA rB : RegId) : (Instr.andq rA rB).byte0 = 0x62 := show byteOf 0x6 0x2 = 0x62 by decide
@[simp] theorem byte0_xorq (rA rB : RegId) : (Instr.xorq rA rB).byte0 = 0x63 := show byteOf 0x6 0x3 = 0x63 by decide
@[simp] theorem byte0_jmp (v : Word) : (Instr.jmp v).byte0 = 0x70 := show byteOf 0x7 0x0 = 0x70 by decide
@[simp] theorem byte0_jle (v : Word) : (Instr.jle v).byte0 = 0x71 := show byteOf 0x7 0x1 = 0x71 by decide
@[simp] theorem byte0_jl (v : Word) : (Instr.jl v).byte0 = 0x72 := show byteOf 0x7 0x2 = 0x72 by decide
@[simp] theorem byte0_je (v : Word) : (Instr.je v).byte0 = 0x73 := show byteOf 0x7 0x3 = 0x73 by decide
@[simp] theorem byte0_jne (v : Word) : (Instr.jne v).byte0 = 0x74 := show byteOf 0x7 0x4 = 0x74 by decide
@[simp] theorem byte0_jge (v : Word) : (Instr.jge v).byte0 = 0x75 := show byteOf 0x7 0x5 = 0x75 by decide
@[simp] theorem byte0_jg (v : Word) : (Instr.jg v).byte0 = 0x76 := show byteOf 0x7 0x6 = 0x76 by decide
@[simp] theorem byte0_call (v : Word) : (Instr.call v).byte0 = 0x80 := show byteOf 0x8 0x0 = 0x80 by decide
@[simp] theorem byte0_ret : Instr.ret.byte0 = 0x90 := show byteOf 0x9 0x0 = 0x90 by decide
@[simp] theorem byte0_pushq (rA rB : RegId) : (Instr.pushq rA rB).byte0 = 0xA0 := show byteOf 0xA 0x0 = 0xA0 by decide
@[simp] theorem byte0_popq (rA rB : RegId) : (Instr.popq rA rB).byte0 = 0xB0 := show byteOf 0xB 0x0 = 0xB0 by decide

/-! ### Whole encodings (R72 to R75) -/

@[simp] theorem encode_halt :
    encode .halt = [0x00] :=
  congrArg (· :: []) (byte0_halt)
@[simp] theorem encode_nop :
    encode .nop = [0x10] :=
  congrArg (· :: []) (byte0_nop)
@[simp] theorem encode_rrmovq (rA rB : RegId) :
    encode (.rrmovq rA rB) = [0x20, byteOf rA rB] :=
  congrArg (· :: [byteOf rA rB]) (byte0_rrmovq rA rB)
@[simp] theorem encode_cmovle (rA rB : RegId) :
    encode (.cmovle rA rB) = [0x21, byteOf rA rB] :=
  congrArg (· :: [byteOf rA rB]) (byte0_cmovle rA rB)
@[simp] theorem encode_cmovl (rA rB : RegId) :
    encode (.cmovl rA rB) = [0x22, byteOf rA rB] :=
  congrArg (· :: [byteOf rA rB]) (byte0_cmovl rA rB)
@[simp] theorem encode_cmove (rA rB : RegId) :
    encode (.cmove rA rB) = [0x23, byteOf rA rB] :=
  congrArg (· :: [byteOf rA rB]) (byte0_cmove rA rB)
@[simp] theorem encode_cmovne (rA rB : RegId) :
    encode (.cmovne rA rB) = [0x24, byteOf rA rB] :=
  congrArg (· :: [byteOf rA rB]) (byte0_cmovne rA rB)
@[simp] theorem encode_cmovge (rA rB : RegId) :
    encode (.cmovge rA rB) = [0x25, byteOf rA rB] :=
  congrArg (· :: [byteOf rA rB]) (byte0_cmovge rA rB)
@[simp] theorem encode_cmovg (rA rB : RegId) :
    encode (.cmovg rA rB) = [0x26, byteOf rA rB] :=
  congrArg (· :: [byteOf rA rB]) (byte0_cmovg rA rB)
@[simp] theorem encode_irmovq (rA rB : RegId) (v : Word) :
    encode (.irmovq rA rB v) = 0x30 :: byteOf rA rB :: bytesOfWord v :=
  congrArg (· :: byteOf rA rB :: bytesOfWord v) (byte0_irmovq rA rB v)
@[simp] theorem encode_rmmovq (rA rB : RegId) (v : Word) :
    encode (.rmmovq rA rB v) = 0x40 :: byteOf rA rB :: bytesOfWord v :=
  congrArg (· :: byteOf rA rB :: bytesOfWord v) (byte0_rmmovq rA rB v)
@[simp] theorem encode_mrmovq (rA rB : RegId) (v : Word) :
    encode (.mrmovq rA rB v) = 0x50 :: byteOf rA rB :: bytesOfWord v :=
  congrArg (· :: byteOf rA rB :: bytesOfWord v) (byte0_mrmovq rA rB v)
@[simp] theorem encode_addq (rA rB : RegId) :
    encode (.addq rA rB) = [0x60, byteOf rA rB] :=
  congrArg (· :: [byteOf rA rB]) (byte0_addq rA rB)
@[simp] theorem encode_subq (rA rB : RegId) :
    encode (.subq rA rB) = [0x61, byteOf rA rB] :=
  congrArg (· :: [byteOf rA rB]) (byte0_subq rA rB)
@[simp] theorem encode_andq (rA rB : RegId) :
    encode (.andq rA rB) = [0x62, byteOf rA rB] :=
  congrArg (· :: [byteOf rA rB]) (byte0_andq rA rB)
@[simp] theorem encode_xorq (rA rB : RegId) :
    encode (.xorq rA rB) = [0x63, byteOf rA rB] :=
  congrArg (· :: [byteOf rA rB]) (byte0_xorq rA rB)
@[simp] theorem encode_jmp (v : Word) :
    encode (.jmp v) = 0x70 :: bytesOfWord v :=
  congrArg (· :: bytesOfWord v) (byte0_jmp v)
@[simp] theorem encode_jle (v : Word) :
    encode (.jle v) = 0x71 :: bytesOfWord v :=
  congrArg (· :: bytesOfWord v) (byte0_jle v)
@[simp] theorem encode_jl (v : Word) :
    encode (.jl v) = 0x72 :: bytesOfWord v :=
  congrArg (· :: bytesOfWord v) (byte0_jl v)
@[simp] theorem encode_je (v : Word) :
    encode (.je v) = 0x73 :: bytesOfWord v :=
  congrArg (· :: bytesOfWord v) (byte0_je v)
@[simp] theorem encode_jne (v : Word) :
    encode (.jne v) = 0x74 :: bytesOfWord v :=
  congrArg (· :: bytesOfWord v) (byte0_jne v)
@[simp] theorem encode_jge (v : Word) :
    encode (.jge v) = 0x75 :: bytesOfWord v :=
  congrArg (· :: bytesOfWord v) (byte0_jge v)
@[simp] theorem encode_jg (v : Word) :
    encode (.jg v) = 0x76 :: bytesOfWord v :=
  congrArg (· :: bytesOfWord v) (byte0_jg v)
@[simp] theorem encode_call (v : Word) :
    encode (.call v) = 0x80 :: bytesOfWord v :=
  congrArg (· :: bytesOfWord v) (byte0_call v)
@[simp] theorem encode_ret :
    encode .ret = [0x90] :=
  congrArg (· :: []) (byte0_ret)
@[simp] theorem encode_pushq (rA rB : RegId) :
    encode (.pushq rA rB) = [0xA0, byteOf rA rB] :=
  congrArg (· :: [byteOf rA rB]) (byte0_pushq rA rB)
@[simp] theorem encode_popq (rA rB : RegId) :
    encode (.popq rA rB) = [0xB0, byteOf rA rB] :=
  congrArg (· :: [byteOf rA rB]) (byte0_popq rA rB)

/-- An instruction's encoding is as long as the instruction (R76). -/
theorem length_encode (i : Instr) : (encode i).length = i.length := by
  cases i <;> simp [bytesOfWord, Instr.length, lengthOfIcode, Instr.icode, needRegids, needValC]

end Sys2Proof
end

