-- ==== Sys2Proof/Laws/Memory.lean ====
section
/-! SUPPORT. What the memory operations can do: each keeps the canonical form, and each is known by its reads
(10_state.md R38, 20_memory.md R52, R55). -/

namespace Sys2Proof.Machine

@[simp] theorem Memory.read_nil (x : Nat) : Memory.read [] x = 0 := rfl

/-- An address below every listed one reads as unlisted. -/
theorem Memory.read_of_lt {m : Memory} {x : Nat} (h : ∀ c ∈ m, x < c.1) : Memory.read m x = Memory.unlisted := by
  induction m with
  | nil => rfl
  | cons c rest ih =>
    obtain ⟨k, b⟩ := c
    have hk : x < k := h (k, b) (List.mem_cons_self ..)
    rw [Memory.read, if_neg (by omega), ih fun c hc => h c (List.mem_cons_of_mem _ hc)]

/-- The canonical form, entry by entry. -/
theorem Memory.wf_cons {k : Nat} {b : Byte} {rest : Memory} :
    Memory.wf ((k, b) :: rest) ↔ (∀ c ∈ rest, k < c.1) ∧ b ≠ Memory.unlisted ∧ Memory.wf rest := by
  simp only [Memory.wf, List.pairwise_cons, List.mem_cons, forall_eq_or_imp]
  tauto

@[simp] theorem Memory.wf_nil : Memory.wf [] := by simp [Memory.wf]

/-- Every entry a byte write leaves is an old one or the written one. -/
theorem Memory.mem_write {m : Memory} {a : Nat} {b : Byte} {c : Host.Cell} (h : c ∈ Memory.write m a b) :
    c ∈ m ∨ c = (a, b) := by
  induction m with
  | nil =>
    rw [Memory.write] at h
    split at h <;> simp_all
  | cons d rest ih =>
    obtain ⟨k, e⟩ := d
    rw [Memory.write] at h
    split at h
    · split at h <;> simp_all
      tauto
    · split at h
      · split at h <;> simp_all
        tauto
      · rcases List.mem_cons.1 h with rfl | h
        · simp
        · rcases ih h with h | h <;> simp [h]

/-- A byte write keeps the canonical form. -/
theorem Memory.wf_write {m : Memory} (h : m.wf) (a : Nat) (b : Byte) : (Memory.write m a b).wf := by
  induction m with
  | nil =>
    rw [Memory.write]
    split <;> simp_all [Memory.wf]
  | cons d rest ih =>
    obtain ⟨k, e⟩ := d
    obtain ⟨hk, he, hr⟩ := Memory.wf_cons.1 h
    rw [Memory.write]
    split
    · split
      · exact h
      · refine Memory.wf_cons.2 ⟨?_, ‹_›, h⟩
        intro c hc
        rcases List.mem_cons.1 hc with rfl | hc
        · assumption
        · have := hk c hc
          omega
    · split
      · split
        · exact hr
        · subst_vars
          exact Memory.wf_cons.2 ⟨hk, ‹_›, hr⟩
      · refine Memory.wf_cons.2 ⟨?_, he, ih hr⟩
        intro c hc
        rcases Memory.mem_write hc with hc | rfl
        · exact hk c hc
        · show k < a
          omega

/-- Everything a byte write can do, seen by every read: the written address reads as written, and every other
address as before (R52, R57). -/
theorem Memory.read_write {m : Memory} (h : m.wf) (a : Nat) (b : Byte) (x : Nat) :
    Memory.read (Memory.write m a b) x = if x = a then b else Memory.read m x := by
  induction m with
  | nil =>
    rw [Memory.write]
    by_cases hx : x = a <;> split <;> simp_all [Memory.read, Memory.unlisted, Ne.symm]
  | cons d rest ih =>
    obtain ⟨k, e⟩ := d
    obtain ⟨hk, he, hr⟩ := Memory.wf_cons.1 h
    rw [Memory.write]
    split
    · have below : Memory.read ((k, e) :: rest) a = Memory.unlisted := by
        apply Memory.read_of_lt
        intro c hc
        rcases List.mem_cons.1 hc with rfl | hc
        · assumption
        · have := hk c hc
          omega
      split
      · by_cases hx : x = a
        · rw [if_pos hx, hx, below, ‹b = _›]
        · rw [if_neg hx]
      · rw [Memory.read]
        by_cases hx : x = a
        · simp [hx]
        · rw [if_neg (fun h => hx h.symm), if_neg hx]
    · split
      · rename_i hak
        rw [hak]
        have above : Memory.read rest k = Memory.unlisted := Memory.read_of_lt hk
        split
        · by_cases hx : x = k
          · rw [if_pos hx, hx, above, ‹b = _›]
          · rw [if_neg hx, Memory.read, if_neg (fun h => hx h.symm)]
        · by_cases hx : x = k
          · rw [if_pos hx, Memory.read, if_pos hx.symm]
          · rw [if_neg hx, Memory.read, if_neg (fun h => hx h.symm), Memory.read, if_neg (fun h => hx h.symm)]
      · rw [Memory.read, Memory.read, ih hr]
        by_cases hx : x = a
        · subst hx
          rw [if_neg (by omega)]
          simp
        · simp [hx]

/-- A string write keeps the canonical form. -/
theorem Memory.wf_writeBytes {m : Memory} (h : m.wf) (a : Nat) (bs : List Byte) : (Memory.writeBytes m a bs).wf := by
  induction bs generalizing m a with
  | nil => exact h
  | cons b bs ih => exact ih (Memory.wf_write h a b) (a + 1)

/-- Everything a string write can do, seen by every read. -/
theorem Memory.read_writeBytes {m : Memory} (h : m.wf) (a : Nat) (bs : List Byte) (x : Nat) :
    Memory.read (Memory.writeBytes m a bs) x =
      if a ≤ x then (bs[x - a]?).getD (Memory.read m x) else Memory.read m x := by
  induction bs generalizing m a with
  | nil => simp [Memory.writeBytes]
  | cons b bs ih =>
    rw [Memory.writeBytes, ih (Memory.wf_write h a b), Memory.read_write h]
    rcases lt_trichotomy x a with hx | rfl | hx
    · simp [show ¬a + 1 ≤ x by omega, show ¬a ≤ x by omega, show x ≠ a by omega]
    · simp
    · obtain ⟨k, rfl⟩ : ∃ k, x = a + 1 + k := ⟨x - (a + 1), by omega⟩
      simp [show a + 1 + k - a = k + 1 by omega, show a + 1 + k ≠ a by omega, show a ≤ a + 1 + k by omega]

/-- Every entry a string write leaves is an old one or lies in the string. -/
theorem Memory.mem_writeBytes {m : Memory} {a : Nat} {bs : List Byte} {c : Host.Cell}
    (h : c ∈ Memory.writeBytes m a bs) : c ∈ m ∨ (a ≤ c.1 ∧ c.1 < a + bs.length) := by
  induction bs generalizing m a with
  | nil => exact .inl h
  | cons b bs ih =>
    rcases ih h with h | h
    · rcases Memory.mem_write h with h | rfl
      · exact .inl h
      · exact .inr (by simp)
    · exact .inr (by simp; omega)

/-- Everything a word write can do, seen by every byte read: byte `a+k` reads as `v[8k+7:8k]`, every other byte
as before (R52). -/
theorem Memory.read_writeWord {m : Memory} (h : m.wf) (a : Nat) (v : Word) (x : Nat) :
    Memory.read (Memory.writeWord m a v) x =
      if a ≤ x ∧ x < a + 8 then wordByte v (x - a) else Memory.read m x := by
  rw [Memory.writeWord, Memory.read_writeBytes h]
  by_cases hx : a ≤ x
  · obtain ⟨k, rfl⟩ : ∃ k, x = a + k := ⟨x - a, by omega⟩
    by_cases hk : k < 8
    · simp only [hx, hk, if_true, Nat.add_sub_cancel_left, Nat.add_lt_add_iff_left, true_and]
      interval_cases k <;> rfl
    · have : (bytesOfWord v)[k]? = none := List.getElem?_eq_none (by simp [bytesOfWord]; omega)
      simp [hk, this]
  · simp [hx]

/-- A word write keeps the canonical form. -/
theorem Memory.wf_writeWord {m : Memory} (h : m.wf) (a : Nat) (v : Word) : (Memory.writeWord m a v).wf :=
  Memory.wf_writeBytes h a _

/-- A word read after a write of the word at the same address yields it (R61). -/
@[simp] theorem Memory.readWord_writeWord {m : Memory} (h : m.wf) (a : Nat) (v : Word) :
    Memory.readWord (Memory.writeWord m a v) a = v := by
  simp [Memory.readWord, Memory.read_writeWord h]

/-- Two memories in canonical form that read alike are equal. -/
theorem Memory.ext_read {m n : Memory} (hm : m.wf) (hn : n.wf) (h : ∀ x, Memory.read m x = Memory.read n x) :
    m = n := by
  induction m generalizing n with
  | nil =>
    cases n with
    | nil => rfl
    | cons d rest =>
      obtain ⟨k, b⟩ := d
      have := h k
      simp [Memory.read] at this
      exact absurd this.symm (Memory.wf_cons.1 hn).2.1
  | cons c rm ih =>
    obtain ⟨k, b⟩ := c
    obtain ⟨hk, hb, hrm⟩ := Memory.wf_cons.1 hm
    cases n with
    | nil =>
      have := h k
      simp [Memory.read] at this
      exact absurd this hb
    | cons d rn =>
      obtain ⟨l, e⟩ := d
      obtain ⟨hl, he, hrn⟩ := Memory.wf_cons.1 hn
      have key : k = l := by
        rcases lt_trichotomy k l with hlt | heq | hgt
        · have e1 := h k
          rw [Memory.read, if_pos rfl, Memory.read_of_lt (m := (l, e) :: rn)] at e1
          · exact absurd e1 hb
          · intro c hc
            rcases List.mem_cons.1 hc with rfl | hc
            · exact hlt
            · have := hl c hc
              omega
        · exact heq
        · have e1 := h l
          rw [Memory.read_of_lt (m := (k, b) :: rm), Memory.read, if_pos rfl] at e1
          · exact absurd e1.symm he
          · intro c hc
            rcases List.mem_cons.1 hc with rfl | hc
            · exact hgt
            · have := hk c hc
              omega
      subst key
      have hbe : b = e := by simpa [Memory.read] using h k
      subst hbe
      congr 1
      apply ih hrm hrn
      intro x
      by_cases hx : k = x
      · subst hx
        rw [Memory.read_of_lt hk, Memory.read_of_lt hl]
      · simpa [Memory.read, hx] using h x

@[simp] theorem Memory.length_readBytes (m : Memory) (a n : Nat) : (Memory.readBytes m a n).length = n := by
  induction n generalizing a with
  | zero => rfl
  | succ n ih => simp [Memory.readBytes, ih]

/-- A string read is known by its byte reads (R16). -/
theorem Memory.getElem?_readBytes (m : Memory) (a n k : Nat) :
    (Memory.readBytes m a n)[k]? = if k < n then some (Memory.read m (a + k)) else none := by
  induction n generalizing a k with
  | zero => simp [Memory.readBytes]
  | succ n ih =>
    cases k with
    | zero => simp [Memory.readBytes]
    | succ k => simp [Memory.readBytes, ih, Nat.add_assoc, Nat.add_comm 1 k]

/-- A string read in two parts (R16). -/
theorem Memory.readBytes_add (m : Memory) (a n k : Nat) :
    Memory.readBytes m a (n + k) = Memory.readBytes m a n ++ Memory.readBytes m (a + n) k := by
  induction n generalizing a with
  | zero => simp [Memory.readBytes]
  | succ n ih => rw [Nat.add_right_comm, Memory.readBytes, ih]; simp [Memory.readBytes, Nat.add_assoc, Nat.add_comm 1]

/-- A string read depends on no byte outside it (R16). -/
theorem Memory.readBytes_congr {m n : Memory} {a k : Nat} (h : ∀ x, a ≤ x → x < a + k → Memory.read n x = Memory.read m x) :
    Memory.readBytes n a k = Memory.readBytes m a k := by
  apply List.ext_getElem?
  intro j
  rw [Memory.getElem?_readBytes, Memory.getElem?_readBytes]
  split
  · rw [h _ (by omega) (by omega)]
  · rfl

/-! ### Data accesses (R16, R55, R148, R149) -/

/-- When an 8-byte access is valid (R55). -/
theorem State.validAccess_iff (s : State) (a : Word) (n : Nat) :
    s.validAccess a n = true ↔ a.toNat + n ≤ s.memCapacity := by
  simp [State.validAccess]

/-- Everything a data read can do (R148). -/
theorem State.memRead_cases (s : State) (a : Word) :
    (a.toNat + 8 ≤ s.memCapacity ∧ s.memRead a = (s.mem.readWord a.toNat, false)) ∨
      (s.memCapacity < a.toNat + 8 ∧ s.memRead a = (0, true)) := by
  by_cases h : a.toNat + 8 ≤ s.memCapacity
  · exact .inl ⟨h, if_pos ((s.validAccess_iff a 8).2 h)⟩
  · exact .inr ⟨by omega, if_neg fun e => h ((s.validAccess_iff a 8).1 e)⟩

/-- Everything a data write can do (R149). -/
theorem State.memWrite_cases (s : State) (a v : Word) :
    (a.toNat + 8 ≤ s.memCapacity ∧ s.memWrite a v = (s.mem.writeWord a.toNat v, false)) ∨
      (s.memCapacity < a.toNat + 8 ∧ s.memWrite a v = (s.mem, true)) := by
  by_cases h : a.toNat + 8 ≤ s.memCapacity
  · exact .inl ⟨h, if_pos ((s.validAccess_iff a 8).2 h)⟩
  · exact .inr ⟨by omega, if_neg fun e => h ((s.validAccess_iff a 8).1 e)⟩

/-- A data read, by its validity (R55, R148). -/
theorem State.memRead_eq (s : State) (a : Word) :
    s.memRead a = if a.toNat + 8 ≤ s.memCapacity then (s.mem.readWord a.toNat, false) else (0, true) := by
  rcases s.memRead_cases a with ⟨h, e⟩ | ⟨h, e⟩
  · rw [e, if_pos h]
  · rw [e, if_neg (by omega)]

/-- A data write, by its validity (R55, R149). -/
theorem State.memWrite_eq (s : State) (a v : Word) :
    s.memWrite a v = if a.toNat + 8 ≤ s.memCapacity then (s.mem.writeWord a.toNat v, false) else (s.mem, true) := by
  rcases s.memWrite_cases a v with ⟨h, e⟩ | ⟨h, e⟩
  · rw [e, if_pos h]
  · rw [e, if_neg (by omega)]

/-- Everything a store of the straight-line machine can do (R175 item 4, R197, R200, R202). -/
theorem State.store_cases (s : State) (a v : Word) :
    (a.toNat + 8 ≤ s.memCapacity ∧ s.store a v = { s with mem := s.mem.writeWord a.toNat v }) ∨
      (s.memCapacity < a.toNat + 8 ∧ s.store a v = { s with run := .stopped .ADR }) := by
  rcases s.memWrite_cases a v with ⟨h, e⟩ | ⟨h, e⟩
  · exact .inl ⟨h, by simp only [State.store, e]; rfl⟩
  · exact .inr ⟨h, by simp only [State.store, e]; rfl⟩

/-- Everything the status of a straight-line load can be (R175 item 4). -/
theorem State.loadStat_cases (s : State) (a : Word) :
    (a.toNat + 8 ≤ s.memCapacity ∧ s.loadStat a = .AOK) ∨
      (s.memCapacity < a.toNat + 8 ∧ s.loadStat a = .ADR) := by
  rcases s.memRead_cases a with ⟨h, e⟩ | ⟨h, e⟩
  · exact .inl ⟨h, by simp [State.loadStat, e]⟩
  · exact .inr ⟨h, by simp [State.loadStat, e]⟩

end Sys2Proof.Machine
end

