-- ==== Sys2Proof/Laws/Fetch.lean ====
section
/-! SUPPORT. What the decoder can answer on a first byte, and the bytes the Fetch stage reads (30_encoding.md R82, R85,
41_fetch.md R104 to R106). -/

namespace Sys2Proof

/-- When the decoder calls a first byte invalid. -/
theorem decode_eq_invalidFirstByte_iff (b b' : Byte) (rest : List Byte) :
    decode (b :: rest) = .invalidFirstByte b' ↔ opcodeMap b = none ∧ b = b' := by
  rw [decode]
  cases h : opcodeMap b with
  | none => simp
  | some t =>
    simp
    cases t <;> cases rest <;> simp [decodeOperands] <;> split <;> simp

/-- Fewer than eight bytes hold no constant word. -/
theorem takeWord_eq_none {bs : List Byte} (h : bs.length < 8) : takeWord bs = none := by
  match bs, h with
  | [], _ => rfl
  | [_], _ => rfl
  | [_, _], _ => rfl
  | [_, _, _], _ => rfl
  | [_, _, _, _], _ => rfl
  | [_, _, _, _, _], _ => rfl
  | [_, _, _, _, _, _], _ => rfl
  | [_, _, _, _, _, _, _], _ => rfl
  | _ :: _ :: _ :: _ :: _ :: _ :: _ :: _ :: _, h => simp at h; omega

/-- An instruction is 1 to 10 bytes long (R76). -/
theorem Instr.length_bounds (i : Instr) : 1 ≤ i.length ∧ i.length ≤ Config.maxInstrBytes := by
  cases i <;> simp [Instr.length, lengthOfIcode, Instr.icode, needRegids, needValC, Config.maxInstrBytes]

namespace Machine

/-- Fetch reads nothing outside memory (R104). -/
theorem fetchWindow_eq_nil (s : State) (pc : Word) (h : s.memCapacity ≤ pc.toNat) : fetchWindow s pc = [] := by
  rw [fetchWindow, show s.memCapacity - pc.toNat = 0 by omega]; rfl

/-- Inside memory Fetch reads the first byte, and as many more as lie in memory, up to the longest instruction (R104,
R106). -/
theorem fetchWindow_eq_cons (s : State) (pc : Word) (h : pc.toNat < s.memCapacity) :
    fetchWindow s pc = s.mem.read pc.toNat ::
      s.mem.readBytes (pc.toNat + 1) (min Config.maxInstrBytes (s.memCapacity - pc.toNat) - 1) := by
  obtain ⟨n, hn⟩ : ∃ n, min Config.maxInstrBytes (s.memCapacity - pc.toNat) = n + 1 :=
    ⟨min Config.maxInstrBytes (s.memCapacity - pc.toNat) - 1, by simp only [Config.maxInstrBytes]; omega⟩
  rw [fetchWindow, hn]; rfl

end Machine

end Sys2Proof
end

