-- ==== Sys2Proof/Laws/Registers.lean ====
section
/-! SUPPORT. What the register operations can do (10_state.md R28, 45_writeback_control.md R156, R157). -/

namespace Sys2Proof.Machine

/-- An id names a register exactly when it is not the sentinel (R25). -/
theorem toNat_lt_15_iff (id : RegId) : id.toNat < 15 ↔ id ≠ RNONE := by
  constructor
  · rintro h rfl
    exact absurd h (by decide)
  · intro h
    have h16 : id.toNat < 16 := id.isLt
    have h15 : id.toNat ≠ 15 := fun e => h (BitVec.eq_of_toNat_eq e)
    omega

/-- A read of the sentinel is 0 (R28). -/
@[simp] theorem RegFile.read_RNONE (rf : RegFile) : RegFile.read rf RNONE = 0 := rfl

/-- A write to the sentinel changes nothing (R28). -/
@[simp] theorem RegFile.write_RNONE (rf : RegFile) (v : Word) : RegFile.write rf RNONE v = rf := rfl

/-- Everything a register write can do, seen by every read (R15, R28). -/
theorem RegFile.read_write (rf : RegFile) (i j : RegId) (v : Word) :
    RegFile.read (RegFile.write rf i v) j = if i = j ∧ i ≠ RNONE then v else RegFile.read rf j := by
  by_cases hi : i.toNat < 15
  · have hne : i ≠ RNONE := (toNat_lt_15_iff i).1 hi
    by_cases hj : j.toNat < 15
    · by_cases hij : i = j
      · subst hij
        simp [RegFile.read, RegFile.write, hi, hne]
      · have : i.toNat ≠ j.toNat := fun e => hij (BitVec.eq_of_toNat_eq e)
        simp [RegFile.read, RegFile.write, hi, hj, hij, Vector.getElem_set_ne, this]
    · have : i ≠ j := fun e => hj (e ▸ hi)
      simp [RegFile.read, hj, this]
  · have hne : i = RNONE := by
      by_contra h
      exact hi ((toNat_lt_15_iff i).2 h)
    simp [hne]

/-- A register reads as written (R15). -/
@[simp] theorem RegFile.read_write_same (rf : RegFile) {i : RegId} (h : i ≠ RNONE) (v : Word) :
    RegFile.read (RegFile.write rf i v) i = v := by
  simp [RegFile.read_write, h]

/-- A register write leaves every other register as it was. -/
theorem RegFile.read_write_ne (rf : RegFile) {i j : RegId} (h : i ≠ j) (v : Word) :
    RegFile.read (RegFile.write rf i v) j = RegFile.read rf j := by
  simp [RegFile.read_write, h]

/-- Two register files that read alike are equal. -/
theorem RegFile.ext_read {a b : RegFile} (h : ∀ id : RegId, RegFile.read a id = RegFile.read b id) : a = b := by
  apply Vector.ext
  intro k hk
  have e := h (BitVec.ofNat 4 k)
  have hmod : k % 16 = k := Nat.mod_eq_of_lt (by omega)
  simpa [RegFile.read, hmod, hk] using e

/-- Everything Writeback can do to the registers: the memory result stays where both results name one register
(R156, R157). -/
theorem read_writebackRegs (w : LatchW) (rf : RegFile) (id : RegId) :
    RegFile.read (writebackRegs w rf) id =
      if w.dstM = id ∧ w.dstM ≠ RNONE then w.valM
      else if w.dstE = id ∧ w.dstE ≠ RNONE then w.valE
      else RegFile.read rf id := by
  simp [writebackRegs, RegFile.read_write]

/-- A bubble in W writes nothing (R158). -/
@[simp] theorem writebackRegs_bubble (rf : RegFile) : writebackRegs LatchW.bubble rf = rf := rfl

end Sys2Proof.Machine
end

