-- ==== Sys2Proof/Laws/Flags.lean ====
section
/-! SUPPORT. What the ALU and the shared operations of moves, OPq and jumps can do (43_execute.md R134, 46_moves.md R178,
47_arith.md R185, 48_control_transfer.md R191). -/

namespace Sys2Proof.Machine

@[simp] theorem alu_ADD (a b : Word) : alu ADD a b = b + a := rfl
@[simp] theorem alu_SUB (a b : Word) : alu SUB a b = b - a := rfl
@[simp] theorem alu_AND (a b : Word) : alu AND a b = b &&& a := rfl
@[simp] theorem alu_XOR (a b : Word) : alu XOR a b = b ^^^ a := rfl

/-- Every read after a register write (R15). -/
theorem State.readReg_writeReg (s : State) (i id : RegId) (v : Word) :
    (s.writeReg i v).readReg id = if id = i ∧ i ≠ RNONE then v else s.readReg id := by
  simp only [State.readReg, State.writeReg, RegFile.read_write, eq_comm]

/-- Every register after a conditional move. -/
theorem moveIf_readReg (fn : Nibble) (rA rB : RegId) (p : Word) (s : State) (id : RegId) :
    (moveIf fn rA rB p s).readReg id =
      if Machine.cond s.cc fn = true ∧ id = rB ∧ rB ≠ RNONE then s.readReg rA else s.readReg id := by
  have : (moveIf fn rA rB p s).readReg id =
      (if Machine.cond s.cc fn then s.writeReg rB (s.readReg rA) else s).readReg id := rfl
  rw [this]
  cases Machine.cond s.cc fn <;> simp [State.readReg_writeReg]

/-- A conditional move changes registers and the pc only. -/
theorem moveIf_frame (fn : Nibble) (rA rB : RegId) (p : Word) (s : State) :
    moveIf fn rA rB p s = { s with regs := (moveIf fn rA rB p s).regs, F := { predPC := p } } := by
  simp only [moveIf]
  split <;> rfl

/-- Everything an OPq does. -/
theorem opq_eq (fn : Nibble) (rA rB : RegId) (p : Word) (s : State) :
    opq fn rA rB p s =
      { s with
        regs := s.regs.write rB (alu fn (s.readReg rA) (s.readReg rB))
        cc := newCC fn (s.readReg rA) (s.readReg rB)
        F := { predPC := p } } := rfl

/-- Everything a conditional jump does. -/
theorem jumpIf_eq (fn : Nibble) (v p : Word) (s : State) :
    jumpIf fn v p s = { s with F := { predPC := if Machine.cond s.cc fn then v else p } } := rfl

end Sys2Proof.Machine
end

