-- ==== Sys2Proof/Laws/PerInstr.lean ====
section
/-! SUPPORT. Statements about the instruction as syntax, one lemma per constructor. -/

namespace Sys2Proof.Laws.InstrForm

/-- Every operand is accepted (R83), the encoding has the instruction's length (R76), and its first byte
holds its instruction code and its function code (R67). -/
def Statement (i : Instr) : Prop :=
  i.wellFormed = true ∧ (encode i).length = i.length ∧ hiNibble i.byte0 = icodeNibble i.icode ∧ loNibble i.byte0 = i.ifun

theorem halt : Statement .halt := ⟨rfl, length_encode _, hiNibble_byteOf _ _, loNibble_byteOf _ _⟩
theorem nop : Statement .nop := ⟨rfl, length_encode _, hiNibble_byteOf _ _, loNibble_byteOf _ _⟩
theorem rrmovq (rA rB : RegId) : Statement (.rrmovq rA rB) := ⟨rfl, length_encode _, hiNibble_byteOf _ _, loNibble_byteOf _ _⟩
theorem cmovle (rA rB : RegId) : Statement (.cmovle rA rB) := ⟨rfl, length_encode _, hiNibble_byteOf _ _, loNibble_byteOf _ _⟩
theorem cmovl (rA rB : RegId) : Statement (.cmovl rA rB) := ⟨rfl, length_encode _, hiNibble_byteOf _ _, loNibble_byteOf _ _⟩
theorem cmove (rA rB : RegId) : Statement (.cmove rA rB) := ⟨rfl, length_encode _, hiNibble_byteOf _ _, loNibble_byteOf _ _⟩
theorem cmovne (rA rB : RegId) : Statement (.cmovne rA rB) := ⟨rfl, length_encode _, hiNibble_byteOf _ _, loNibble_byteOf _ _⟩
theorem cmovge (rA rB : RegId) : Statement (.cmovge rA rB) := ⟨rfl, length_encode _, hiNibble_byteOf _ _, loNibble_byteOf _ _⟩
theorem cmovg (rA rB : RegId) : Statement (.cmovg rA rB) := ⟨rfl, length_encode _, hiNibble_byteOf _ _, loNibble_byteOf _ _⟩
theorem irmovq (rA rB : RegId) (v : Word) : Statement (.irmovq rA rB v) := ⟨rfl, length_encode _, hiNibble_byteOf _ _, loNibble_byteOf _ _⟩
theorem rmmovq (rA rB : RegId) (v : Word) : Statement (.rmmovq rA rB v) := ⟨rfl, length_encode _, hiNibble_byteOf _ _, loNibble_byteOf _ _⟩
theorem mrmovq (rA rB : RegId) (v : Word) : Statement (.mrmovq rA rB v) := ⟨rfl, length_encode _, hiNibble_byteOf _ _, loNibble_byteOf _ _⟩
theorem addq (rA rB : RegId) : Statement (.addq rA rB) := ⟨rfl, length_encode _, hiNibble_byteOf _ _, loNibble_byteOf _ _⟩
theorem subq (rA rB : RegId) : Statement (.subq rA rB) := ⟨rfl, length_encode _, hiNibble_byteOf _ _, loNibble_byteOf _ _⟩
theorem andq (rA rB : RegId) : Statement (.andq rA rB) := ⟨rfl, length_encode _, hiNibble_byteOf _ _, loNibble_byteOf _ _⟩
theorem xorq (rA rB : RegId) : Statement (.xorq rA rB) := ⟨rfl, length_encode _, hiNibble_byteOf _ _, loNibble_byteOf _ _⟩
theorem jmp (v : Word) : Statement (.jmp v) := ⟨rfl, length_encode _, hiNibble_byteOf _ _, loNibble_byteOf _ _⟩
theorem jle (v : Word) : Statement (.jle v) := ⟨rfl, length_encode _, hiNibble_byteOf _ _, loNibble_byteOf _ _⟩
theorem jl (v : Word) : Statement (.jl v) := ⟨rfl, length_encode _, hiNibble_byteOf _ _, loNibble_byteOf _ _⟩
theorem je (v : Word) : Statement (.je v) := ⟨rfl, length_encode _, hiNibble_byteOf _ _, loNibble_byteOf _ _⟩
theorem jne (v : Word) : Statement (.jne v) := ⟨rfl, length_encode _, hiNibble_byteOf _ _, loNibble_byteOf _ _⟩
theorem jge (v : Word) : Statement (.jge v) := ⟨rfl, length_encode _, hiNibble_byteOf _ _, loNibble_byteOf _ _⟩
theorem jg (v : Word) : Statement (.jg v) := ⟨rfl, length_encode _, hiNibble_byteOf _ _, loNibble_byteOf _ _⟩
theorem call (v : Word) : Statement (.call v) := ⟨rfl, length_encode _, hiNibble_byteOf _ _, loNibble_byteOf _ _⟩
theorem ret : Statement .ret := ⟨rfl, length_encode _, hiNibble_byteOf _ _, loNibble_byteOf _ _⟩
theorem pushq (rA rB : RegId) : Statement (.pushq rA rB) := ⟨rfl, length_encode _, hiNibble_byteOf _ _, loNibble_byteOf _ _⟩
theorem popq (rA rB : RegId) : Statement (.popq rA rB) := ⟨rfl, length_encode _, hiNibble_byteOf _ _, loNibble_byteOf _ _⟩

end Sys2Proof.Laws.InstrForm
end

