-- ==== Sys2Proof/Laws/Stages.lean ====
section
/-! SUPPORT. What the stage functions can do: on bubbles, on states that agree on memory, and along the completion
of the instructions in flight. -/

namespace Sys2Proof.Machine

/-! ### Bubbles do nothing (R40, R127, R152, R158) -/

@[simp] theorem wIn_bubble (s : State) : wIn LatchM.bubble s = LatchW.bubble := rfl
@[simp] theorem mIn_bubble (cc : CC) : mIn LatchE.bubble cc = LatchM.bubble := rfl
@[simp] theorem eCC_bubble (cc : CC) : eCC LatchE.bubble cc = cc := rfl
@[simp] theorem mMem_bubble (s : State) : mMem LatchM.bubble s = s.mem := rfl
@[simp] theorem mStat_bubble (s : State) : mStat LatchM.bubble s = .BUB := rfl
@[simp] theorem eInWith_bubble {value : RegId → Word} (h : value RNONE = 0) :
    eInWith value LatchD.bubble = LatchE.bubble := by
  simp [eInWith, LatchD.bubble, LatchE.bubble, srcA, srcB, dstE, dstM, h]
@[simp] theorem operandValue_RNONE (s : State) : operandValue s RNONE = 0 := rfl
@[simp] theorem readReg_RNONE (s : State) : s.readReg RNONE = 0 := rfl

@[simp] theorem finishW_bubble (a : State) : finishW LatchW.bubble a = a := rfl
@[simp] theorem finishM_bubble (a : State) : finishM LatchM.bubble a = a := rfl
@[simp] theorem finishE_bubble (a : State) : finishE LatchE.bubble a = a := rfl
@[simp] theorem finishD_bubble (a : State) : finishD LatchD.bubble a = a := by
  rw [finishD, eInWith_bubble (readReg_RNONE a)]
  rfl

/-! ### Statuses and stopping -/

/-- A status is exceptional exactly when it is one of HLT, ADR, INS (R23). -/
theorem Stat.isExc_iff {st : Stat} : st.isExc = true ↔ ∃ e, st.exc? = some e := by
  simp [Stat.isExc, Option.isSome_iff_exists]

/-- The retirement of a normal status changes nothing (R36). -/
theorem State.retire_of_normal (a : State) {st : Stat} (h : st.isExc = false) : a.retire st = a := by
  cases st <;> simp_all [Stat.isExc, Stat.exc?] <;> rfl

theorem State.atStop_of_running {a : State} (h : a.run = .running) : a.atStop = a := by simp [State.atStop, h]

theorem State.atStop_of_stopped {a : State} {e : Exc} (h : a.run = .stopped e) : a.atStop = a.setPC 0 := by
  simp [State.atStop, h]

theorem State.andThen_of_running {a : State} (h : a.run = .running) (f : State → State) : a.andThen f = f a := by
  simp [State.andThen, h]

theorem State.andThen_of_stopped {a : State} {e : Exc} (h : a.run = .stopped e) (f : State → State) :
    a.andThen f = a := by
  simp [State.andThen, h]

/-- A property of a state and of its completion holds once the completion has been made or not made. -/
theorem State.andThen_property {P : State → Prop} {a : State} {f : State → State} (ha : P a) (hf : P (f a)) :
    P (a.andThen f) := by
  unfold State.andThen
  split
  · exact hf
  · exact ha

/-! ### Completing an instruction -/

/-- The Memory stage keeps the memory's canonical form and every byte but those of its store (R52, R149). -/
theorem mMem_frame {m : LatchM} {a : State} (hw : a.mem.wf) :
    (mMem m a).wf ∧ ∀ x, ¬storesTo m x → (mMem m a).read x = a.mem.read x := by
  by_cases hs : isStore m.icode = true
  · rw [mMem, if_pos hs, State.memWrite_eq]
    split
    · refine ⟨Memory.wf_writeWord hw _ _, fun x hx => ?_⟩
      show Memory.read (Memory.writeWord a.mem (memAddr m).toNat m.valA) x = _
      rw [Memory.read_writeWord hw, if_neg fun h => hx ⟨hs, h⟩]
    · exact ⟨hw, fun _ _ => rfl⟩
  · rw [mMem, if_neg hs]
    exact ⟨hw, fun _ _ => rfl⟩

/-- The Memory stage sees nothing of the state but the memory and the capacity (R59). -/
theorem memoryStage_congr {a b : State} (m : LatchM) (hm : a.mem = b.mem) (hc : a.memCapacity = b.memCapacity) :
    wIn m a = wIn m b ∧ mMem m a = mMem m b := by
  have hr : ∀ x, a.memRead x = b.memRead x := by intro x; simp [State.memRead, State.validAccess, hm, hc]
  have hw : ∀ x v, a.memWrite x v = b.memWrite x v := by intro x v; simp [State.memWrite, State.validAccess, hm, hc]
  simp [wIn, mStat, dmemError, mValM, mMem, hr, hw, hm]

/-- The pc an older instruction left is overwritten by a ret and by a mispredicted jump in M, and by nothing else. -/
theorem finishM_withF (m : LatchM) (c : State) (f : LatchF) :
    finishM m { c with F := f } = { finishM m c with F :=
      if m.icode = .IRET then { predPC := mValM m c }
      else if m.icode = .IJXX ∧ m.Cnd = false then { predPC := m.valA } else f } := by
  have h := memoryStage_congr m (a := { c with F := f }) (b := c) rfl rfl
  simp only [finishM, finishW]
  rw [h.1, h.2]
  rfl

/-- The same for an instruction in E. -/
theorem finishE_withF (e : LatchE) (c : State) (f : LatchF) :
    finishE e { c with F := f } = { finishE e c with F :=
      if e.icode = .IRET then { predPC := mValM (mIn e c.cc) c }
      else if e.icode = .IJXX ∧ (eCnd e c.cc) = false then { predPC := e.valA } else f } :=
  finishM_withF (mIn e c.cc) { c with cc := eCC e c.cc } f

/-- Everything completing an instruction from D does. -/
theorem finishD_eq (d : LatchD) (a : State) :
    finishD d a =
      (fun m : LatchM => State.retire
        { a with
          regs := (a.regs.write m.dstE m.valE).write m.dstM (mValM m a)
          cc := eCC (eInWith a.readReg d) a.cc
          mem := mMem m a
          F := if m.icode = .IRET then { predPC := mValM m a }
            else if m.icode = .IJXX ∧ m.Cnd = false then { predPC := m.valA } else a.F }
        (mStat m a))
      (mIn (eInWith a.readReg d) a.cc) := rfl

/-- Completing an erroneous fetch only stops the run (R108, R211). -/
theorem finishD_errorSlot (st : Stat) (pc : Word) (length : Nat) (a : State) :
    finishD (errorSlot st pc length) a = a.retire st := by
  simp [finishD, finishE, finishM, finishW, errorSlot, eInWith, mIn, wIn, eCC, setsCC, mMem, mValM, mStat, dmemError,
    isLoad, isStore, dstE, dstM, eDstE, writebackRegs]

end Sys2Proof.Machine
end

