-- ==== Sys2Proof/Tests/Slice0.lean ====
section
/-! SUPPORT. Tests: words written out from the spec's encodings, ill-formed terms, one step per instruction with the
values of the spec's own examples, and a witness for every statement with hypotheses. -/

namespace Sys2Proof.Tests

open Sys2Proof.Machine

/-! ### Decoding: the bytes of the spec's tables and examples (R67 to R86, R177 to R205) -/

theorem test_decode_halt : decode [0x00] = .ok (.halt) [] := by decide
theorem test_decode_nop : decode [0x10] = .ok (.nop) [] := by decide
theorem test_decode_rrmovq : decode [0x20, 0x03] = .ok (.rrmovq 0 3) [] := by decide
theorem test_decode_cmovle : decode [0x21, 0x03] = .ok (.cmovle 0 3) [] := by decide
theorem test_decode_cmovl : decode [0x22, 0x03] = .ok (.cmovl 0 3) [] := by decide
theorem test_decode_cmove : decode [0x23, 0x12] = .ok (.cmove 1 2) [] := by decide
theorem test_decode_cmovne : decode [0x24, 0x12] = .ok (.cmovne 1 2) [] := by decide
theorem test_decode_cmovge : decode [0x25, 0x67] = .ok (.cmovge 6 7) [] := by decide
theorem test_decode_cmovg : decode [0x26, 0x67] = .ok (.cmovg 6 7) [] := by decide
theorem test_decode_irmovq : decode [0x30, 0xF2, 0x0A, 0, 0, 0, 0, 0, 0, 0] = .ok (.irmovq 0xF 2 10) [] := by decide
theorem test_decode_rmmovq : decode [0x40, 0x03, 0x88, 0x77, 0x66, 0x55, 0x44, 0x33, 0x22, 0x11] = .ok (.rmmovq 0 3 0x1122334455667788) [] := by decide
theorem test_decode_mrmovq : decode [0x50, 0x13, 0xF8, 0xFF, 0xFF, 0xFF, 0xFF, 0xFF, 0xFF, 0xFF] = .ok (.mrmovq 1 3 (-8)) [] := by decide
theorem test_decode_addq : decode [0x60, 0x20] = .ok (.addq 2 0) [] := by decide
theorem test_decode_subq : decode [0x61, 0x61] = .ok (.subq 6 1) [] := by decide
theorem test_decode_andq : decode [0x62, 0x03] = .ok (.andq 0 3) [] := by decide
theorem test_decode_xorq : decode [0x63, 0x00] = .ok (.xorq 0 0) [] := by decide
theorem test_decode_jmp : decode [0x70, 0x20, 0, 0, 0, 0, 0, 0, 0] = .ok (.jmp 0x20) [] := by decide
theorem test_decode_jle : decode [0x71, 0x34, 0x12, 0, 0, 0, 0, 0, 0x80] = .ok (.jle 0x8000000000001234) [] := by decide
theorem test_decode_jl : decode [0x72, 0x34, 0x12, 0, 0, 0, 0, 0, 0x80] = .ok (.jl 0x8000000000001234) [] := by decide
theorem test_decode_je : decode [0x73, 0x34, 0x12, 0, 0, 0, 0, 0, 0x80] = .ok (.je 0x8000000000001234) [] := by decide
theorem test_decode_jne : decode [0x74, 0x34, 0x12, 0, 0, 0, 0, 0, 0x80] = .ok (.jne 0x8000000000001234) [] := by decide
theorem test_decode_jge : decode [0x75, 0x34, 0x12, 0, 0, 0, 0, 0, 0x80] = .ok (.jge 0x8000000000001234) [] := by decide
theorem test_decode_jg : decode [0x76, 0x34, 0x12, 0, 0, 0, 0, 0, 0x80] = .ok (.jg 0x8000000000001234) [] := by decide
theorem test_decode_call : decode [0x80, 0x20, 0, 0, 0, 0, 0, 0, 0] = .ok (.call 0x20) [] := by decide
theorem test_decode_ret : decode [0x90] = .ok (.ret) [] := by decide
theorem test_decode_pushq : decode [0xA0, 0x0F] = .ok (.pushq 0 0xF) [] := by decide
theorem test_decode_popq : decode [0xB0, 0x3F] = .ok (.popq 3 0xF) [] := by decide
theorem test_decode_unused_nibble : decode [0xB0, 0x37] = .ok (.popq 3 7) [] := by decide
theorem test_decode_invalid_code : decode [0xC0, 0x00] = .invalidFirstByte 0xC0 := by decide
theorem test_decode_invalid_function : decode [0x64, 0x00] = .invalidFirstByte 0x64 := by decide
theorem test_decode_too_short : decode [0x30, 0xF2, 0x0A] = .tooShort 10 := by decide
theorem test_decode_nothing : decode [] = .noFirstByte := by decide
theorem test_decode_leaves_rest : decode [0x90, 0x10, 0x00] = .ok .ret [0x10, 0x00] := by decide

/-! ### Ill-formed terms: the assembler writes 0xF in an unused nibble (R73, R74, R86) -/

theorem test_assembler_irmovq : Instr.assemblerForm (.irmovq 0 2 10) = false := by decide
theorem test_assembler_pushq : Instr.assemblerForm (.pushq 0 3) = false := by decide
theorem test_assembler_popq : Instr.assemblerForm (.popq 0 3) = false := by decide
theorem test_assembler_accepts : Instr.assemblerForm (.irmovq 0xF 2 10) = true := by decide

/-! ### The host's two questions -/

theorem test_table_word_xorq : decodeTableWord 16 0x0363 = some (.xorq 0 3) := by decide
theorem test_table_word_pads : decodeTableWord 8 0x30 = some (.irmovq 0 0 0) := by decide
theorem test_table_word_invalid : decodeTableWord 8 0xF0 = none := by decide
theorem test_fetch_word : fetchInstr (State.reset.withFetchWord 16 0x0363) 0 =
    .ok (.xorq 0 3) [0, 0, 0, 0, 0, 0, 0, 0] := by decide
theorem test_fetch_word_runs : (cycle (State.reset.withFetchWord 8 0xA0)).D.icode = .IPUSHQ := by decide

/-! ### One step of each instruction -/

/-- A state at `pc` with two registers set. -/
def start (pc : Word) (r1 : RegId) (v1 : Word) (r2 : RegId) (v2 : Word) : State :=
  ((State.reset.writeReg r1 v1).writeReg r2 v2).setPC pc

/-- The same with a word in memory. -/
def startMem (pc : Word) (r1 : RegId) (v1 : Word) (r2 : RegId) (v2 : Word) (a : Nat) (v : Word) : State :=
  (fun s : State => { s with mem := s.mem.writeWord a v }) (start pc r1 v1 r2 v2)

/-- The next state of an outcome. -/
def after (o : Host.Outcome State Fault Refusal) : Option State :=
  match o with
  | .next t => some t
  | .fault _ => none
  | .refused _ => none

/-- A register and the pc of the next state. -/
def regPC (id : RegId) (o : Host.Outcome State Fault Refusal) : Option (Word × Word) :=
  (after o).map fun t => (t.readReg id, t.pc)

/-- A register and the condition codes of the next state. -/
def regCC (id : RegId) (o : Host.Outcome State Fault Refusal) : Option (Word × Bool × Bool × Bool) :=
  (after o).map fun t => (t.readReg id, t.cc.ZF, t.cc.SF, t.cc.OF)

/-- The pc of the next state. -/
def nextPC (o : Host.Outcome State Fault Refusal) : Option Word := (after o).map State.pc

/-- %rsp, the pc and one word of memory of the next state. -/
def stackPC (a : Nat) (o : Host.Outcome State Fault Refusal) : Option (Word × Word × Word) :=
  (after o).map fun t => (t.readReg RRSP, t.pc, t.mem.readWord a)

theorem test_exec_rrmovq : regPC 3 (exec (.rrmovq 0 3) (start 0 0 5 3 0)) = some (5, 2) := by decide
theorem test_exec_rrmovq_from_none : regPC 3 (exec (.rrmovq 0xF 3) (start 0 0 5 3 7)) = some (0, 2) := by decide
theorem test_exec_cmovle : regPC 3 (exec (.cmovle 0 3) (start 0 0 9 3 1)) = some (9, 2) := by decide
theorem test_exec_cmovl : regPC 3 (exec (.cmovl 0 3) (start 0 0 9 3 1)) = some (1, 2) := by decide
theorem test_exec_cmovl_taken : regPC 3 (exec (.cmovl 0 3) ((start 0 0 9 3 1).setCC (CC.mk false true false))) = some (9, 2) := by decide
theorem test_exec_cmove : regPC 2 (exec (.cmove 1 2) (start 0 1 4 2 0)) = some (4, 2) := by decide
theorem test_exec_cmovne : regPC 2 (exec (.cmovne 1 2) (start 0 1 4 2 0)) = some (0, 2) := by decide
theorem test_exec_cmovge : regPC 7 (exec (.cmovge 6 7) ((start 0 6 7 7 0).setCC (CC.mk false true true))) = some (7, 2) := by decide
theorem test_exec_cmovg : regPC 7 (exec (.cmovg 6 7) (start 0 6 7 7 0)) = some (0, 2) := by decide
theorem test_exec_cmovg_taken : regPC 7 (exec (.cmovg 6 7) ((start 0 6 7 7 0).setCC (CC.mk false true true))) = some (7, 2) := by decide
theorem test_exec_irmovq : regPC 2 (exec (.irmovq 0xF 2 10) (start 0 0 0 0 0)) = some (10, 10) := by decide
theorem test_exec_irmovq_to_none : regPC 0 (exec (.irmovq 0xF 0xF 10) (start 0 0 1 1 0)) = some (1, 10) := by decide
theorem test_exec_rmmovq : ((after (exec (.rmmovq 0 3 0) (start 0 3 0x200 0 0x1234))).map fun t => t.mem) = some [(0x200, 0x34), (0x201, 0x12)] := by decide
theorem test_exec_rmmovq_invalid : ((after (exec (.rmmovq 0 3 0) (start 0 3 0xFF9 0 0x1234))).map fun t => (t.mem, t.run)) = some ([], .stopped .ADR) := by decide
theorem test_exec_mrmovq : regPC 1 (exec (.mrmovq 1 3 0) (startMem 0 3 0x200 1 0 0x200 0x1234)) = some (0x1234, 10) := by decide
theorem test_exec_mrmovq_invalid : ((after (exec (.mrmovq 1 3 0) (start 0 3 0xFF9 1 7))).map fun t => (t.readReg 1, t.run)) = some (0, .stopped .ADR) := by decide
theorem test_exec_addq : regCC 0 (exec (.addq 2 0) (start 0 0 3 2 10)) = some (13, false, false, false) := by decide
theorem test_exec_addq_overflow : regCC 1 (exec (.addq 0 1) (start 0 0 0x7FFFFFFFFFFFFFFF 1 1)) = some (0x8000000000000000, false, true, true) := by decide
theorem test_exec_subq : regCC 1 (exec (.subq 6 1) (start 0 1 3 6 1)) = some (2, false, false, false) := by decide
theorem test_exec_subq_overflow : regCC 1 (exec (.subq 0 1) (start 0 0 1 1 0x8000000000000000)) = some (0x7FFFFFFFFFFFFFFF, false, false, true) := by decide
theorem test_exec_andq : regCC 3 (exec (.andq 0 3) (start 0 0 0xF0 3 0x3C)) = some (0x30, false, false, false) := by decide
theorem test_exec_xorq : regCC 0 (exec (.xorq 0 0) (start 0 0 9 0 9)) = some (0, true, false, false) := by decide
theorem test_exec_xorq_to_none : regCC 0 (exec (.xorq 0 0xF) (start 0 0 9 0 9)) = some (9, false, false, false) := by decide
theorem test_exec_jmp : nextPC (exec (.jmp 0x20) State.reset) = some 0x20 := by decide
theorem test_exec_jle_taken : nextPC (exec (.jle 0x20) (State.reset.setCC (CC.mk false true false))) = some 0x20 := by decide
theorem test_exec_jl_not_taken : nextPC (exec (.jl 0x20) State.reset) = some 9 := by decide
theorem test_exec_je_taken : nextPC (exec (.je 0x20) State.reset) = some 0x20 := by decide
theorem test_exec_jne_not_taken : nextPC (exec (.jne 0x20) State.reset) = some 9 := by decide
theorem test_exec_jge_taken : nextPC (exec (.jge 0x20) State.reset) = some 0x20 := by decide
theorem test_exec_jg_not_taken : nextPC (exec (.jg 0x20) State.reset) = some 9 := by decide
theorem test_exec_call : stackPC 0xF8 (exec (.call 0x20) (start 0x0A 4 0x100 0 0)) = some (0xF8, 0x20, 0x13) := by decide
theorem test_exec_call_invalid : ((after (exec (.call 0x20) State.reset)).map fun t => (t.readReg 4, t.run)) = some (-8, .stopped .ADR) := by decide
theorem test_exec_ret : stackPC 0xF8 (exec .ret (startMem 0x20 4 0xF8 0 0 0xF8 0x13)) = some (0x100, 0x13, 0x13) := by decide
theorem test_exec_ret_invalid : ((after (exec .ret (start 0 4 0xFF9 0 0))).map fun t => (t.readReg 4, t.pc, t.run)) = some (0x1001, 0, .stopped .ADR) := by decide
theorem test_exec_pushq : stackPC 0xF8 (exec (.pushq 0 0xF) (start 0 4 0x100 0 5)) = some (0xF8, 2, 5) := by decide
theorem test_exec_pushq_rsp : stackPC 0xF8 (exec (.pushq 4 0xF) (start 0 4 0x100 0 5)) = some (0xF8, 2, 0x100) := by decide
theorem test_exec_popq : ((after (exec (.popq 3 0xF) (startMem 0 4 0xF8 3 0 0xF8 5))).map fun t => (t.readReg 3, t.readReg 4)) = some (5, 0x100) := by decide
theorem test_exec_popq_rsp : regPC 4 (exec (.popq 4 0xF) (startMem 0 4 0xF8 3 0 0xF8 5)) = some (5, 2) := by decide
theorem test_exec_halt : ((after (exec .halt State.reset)).map fun t => (t.pc, t.run)) = some (0, .stopped .HLT) := by decide
theorem test_exec_nop : nextPC (exec .nop State.reset) = some 1 := by decide

/-! ### The pipeline: states with instructions in flight -/

/-- `addq %rdx, %rax` in D behind `irmovq $3, %rdx` in E, and `xorq %rax, %rbx` at the fetch address (R130). -/
def flowing : State :=
  { State.reset with
    regs := (State.reset.writeReg RRAX 7).regs
    mem := [(4, 0x63), (5, 0x03)]
    F := { predPC := 4 }
    D := { stat := .AOK, icode := .IOPQ, ifun := 0, rA := 2, rB := 0, valC := 0, valP := 4 }
    E := { LatchE.bubble with stat := .AOK, icode := .IIRMOVQ, valC := 3, dstE := 2 } }

/-- `addq %rax, %rbx` in D behind the load `mrmovq 0(%rcx), %rax` in E (R174). -/
def loadUse : State :=
  { State.reset with
    D := { stat := .AOK, icode := .IOPQ, ifun := 0, rA := 0, rB := 3, valC := 0, valP := 2 }
    E := { LatchE.bubble with stat := .AOK, icode := .IMRMOVQ, dstM := 0 } }

/-- A jne not to be taken in E, its wrong path in D. -/
def mispredicted : State :=
  { State.reset with
    D := { stat := .AOK, icode := .IOPQ, ifun := 0, rA := 0, rB := 3, valC := 0, valP := 2 }
    E := { LatchE.bubble with stat := .AOK, icode := .IJXX, ifun := 4, valA := 9 } }

/-- A ret in D. -/
def returning : State :=
  { State.reset with D := { LatchD.bubble with stat := .AOK, icode := .IRET } }

/-- A halt in W, nothing in M. -/
def halting : State := { State.reset with W := { LatchW.bubble with stat := .HLT, icode := .IHALT } }

/-- A push in M whose slot is outside memory, with an OPq behind it in E. -/
def faulting : State :=
  { State.reset with
    E := { LatchE.bubble with stat := .AOK, icode := .IOPQ, dstE := 3 }
    M := { LatchM.bubble with stat := .AOK, icode := .IPUSHQ, valE := -8, dstE := RRSP } }

/-- A stopped state. -/
def stopped : State := { State.reset with run := .stopped .INS }

/-- Reset with the pc moved and one byte in memory. -/
def atByte (pc : Word) (a : Nat) (b : Byte) : State := { State.reset with F := { predPC := pc }, mem := [(a, b)] }

/-- `irmovq $5, %rax` at 0, `rmmovq %rax, 0x15` at 0xA, `halt` at 0x14: the store is in flight while the halt is
fetched, and writes the byte right after it, no instruction byte (R100, R240). -/
def storeBehindHalt : State :=
  State.boot 4096 [(0, 0x30), (1, 0xF0), (2, 5), (0xA, 0x40), (0xB, 0x0F), (0xC, 0x15)]

/-- The rows of R172's examples, and R130's forwarded operands. -/
theorem test_modes_load_use : (modeF loadUse, modeD loadUse, modeE loadUse, modeM loadUse, modeW loadUse) =
    (.STALL, .STALL, .BUBBLE, .NORMAL, .NORMAL) := by decide
theorem test_forwarding : ((eIn flowing).valA, (eIn flowing).valB, (eIn flowing).dstE) = (3, 7, 0) := by decide
theorem test_stage_pushq_invalid : mStat faulting.M faulting = .ADR := by decide
theorem test_halt_alone : (drive 5 State.reset).map (fun r => (r.status, r.cycles)) = some (.HLT, 5) := by decide
theorem test_halt_alone_limit : drive 4 State.reset = none := by decide
theorem test_load_error_order : bootImage 16 [some (DataLine.mk 4 [1]), some (DataLine.mk 2 [1])] =
    .error (.outOfOrder 2) := rfl
theorem test_load_error_capacity : bootImage 16 [none, some (DataLine.mk 15 [1, 2])] =
    .error (.exceedsCapacity 2) := rfl

/-! ### Witnesses: for each statement with hypotheses, a state and operands that meet them, at the ends of the ranges -/

theorem witness_DecodeReadsOnlyEncodings : decode [0x20, 0x03, 0x90] = .ok (.rrmovq 0 3) [0x90] := by decide
theorem witness_InstructionLength : fetchInstr (atByte 0xFFF 0xFFF 0xF0) 0xFFF = .invalidFirstByte 0xF0 := by decide
theorem witness_RegisterReadWrite : RR14 ≠ RNONE := by decide
theorem witness_StoreThenLoad :
    State.reset.mem.wf ∧ (0xFF8 : Word).toNat + 8 ≤ State.reset.memCapacity := ⟨Memory.wf_nil, by decide⟩
theorem witness_InvalidAccess :
    State.reset.memCapacity < (0xFF9 : Word).toNat + 8 ∧
    (isStore faulting.M.icode = true ∧ faulting.memCapacity < (memAddr faulting.M).toNat + 8) ∧
    (isLoad .IRET = true ∧ State.reset.memCapacity <
      (memAddr { LatchM.bubble with icode := .IRET, valA := 0xFF9 }).toNat + 8) := by decide
theorem witness_ConditionalMoveResults : ∀ p ∈
    [(Instr.cmovle 0 3, (State.reset.cc.SF ^^ State.reset.cc.OF) || State.reset.cc.ZF),
     (Instr.cmovl 0 3, State.reset.cc.SF ^^ State.reset.cc.OF),
     (Instr.cmove 0 3, State.reset.cc.ZF),
     (Instr.cmovne 0 3, !State.reset.cc.ZF),
     (Instr.cmovge 0 3, !(State.reset.cc.SF ^^ State.reset.cc.OF)),
     (Instr.cmovg 0 3, !(State.reset.cc.SF ^^ State.reset.cc.OF) && !State.reset.cc.ZF)],
    regPC 3 (exec p.1 State.reset) = some (0, 2) := by decide
theorem witness_ArithmeticResults :
    ((3 : Word) = (start 0 0 3 2 10).readReg 0 ∧ (10 : Word) = (start 0 0 3 2 10).readReg 2) ∧
    ∀ p ∈ [(Instr.addq 0 2, (13 : Word)), (Instr.subq 0 2, 7), (Instr.andq 0 2, 2), (Instr.xorq 0 2, 9)],
      regPC 2 (exec p.1 (start 0 0 3 2 10)) = some (p.2, 2) := by decide
theorem witness_JumpResults : ∀ p ∈
    [(Instr.jmp 0x20, true), (Instr.jle 0x20, true), (Instr.jl 0x20, false), (Instr.je 0x20, true),
     (Instr.jne 0x20, false), (Instr.jge 0x20, true), (Instr.jg 0x20, false)],
    nextPC (exec p.1 State.reset) = some (if p.2 then 0x20 else 9) := by decide
theorem witness_CallResult_PushqResult :
    (start 0 RRSP 0x1000 0 5).mem.wf ∧
    (start 0 RRSP 0x1000 0 5).pushAddr.toNat + 8 ≤ (start 0 RRSP 0x1000 0 5).memCapacity :=
  ⟨Memory.wf_nil, by decide⟩
theorem witness_RetResult_PopqResult :
    (start 0 RRSP 0xFF8 0 5).popAddr.toNat + 8 ≤ (start 0 RRSP 0xFF8 0 5).memCapacity := by decide
theorem witness_RmmovqResult_MrmovqResult :
    (start 0 3 0x1000 0 5).mem.wf ∧
    ((start 0 3 0x1000 0 5).effectiveAddr 3 (-8)).toNat + 8 ≤ (start 0 3 0x1000 0 5).memCapacity :=
  ⟨Memory.wf_nil, by decide⟩
theorem witness_DataAddressErrors :
    State.reset.memCapacity < State.reset.pushAddr.toNat + 8 ∧
    (start 0 RRSP 0xFF9 0 5).memCapacity < (start 0 RRSP 0xFF9 0 5).popAddr.toNat + 8 ∧
    (start 0 3 0xFF9 0 5).memCapacity < ((start 0 3 0xFF9 0 5).effectiveAddr 3 0).toNat + 8 := by decide
theorem witness_ExecKeepsMemoryLegal :
    memoryLegal State.reset ∧ ∃ t, exec (.pushq 0 0xF) State.reset = .next t :=
  ⟨⟨Memory.wf_nil, by decide⟩, _, rfl⟩
theorem witness_StraightLineRunsDecoded :
    (atByte 0xFFF 0xFFF 0x90).run = .running ∧ instrAt (atByte 0xFFF 0xFFF 0x90) (atByte 0xFFF 0xFFF 0x90).pc .ret := by
  decide

/-- 0xF0 is the first byte of no instruction. -/
theorem no_instruction_F0 (i : Instr) : i.byte0 ≠ 0xF0 := by cases i <;> simp

theorem witness_StraightLineFetchErrors_FetchStatus :
    (atByte 0x1000 0 0).memCapacity ≤ (atByte 0x1000 0 0).pc.toNat ∧
    ((atByte 0xFFF 0xFFF 0xF0).pc.toNat < (atByte 0xFFF 0xFFF 0xF0).memCapacity ∧
      ∀ i : Instr, i.byte0 ≠ (atByte 0xFFF 0xFFF 0xF0).mem.read (atByte 0xFFF 0xFFF 0xF0).pc.toNat) ∧
    ((atByte 0xFF7 0xFF7 0x30).pc.toNat < (atByte 0xFF7 0xFF7 0x30).memCapacity ∧
      (Instr.irmovq 0 0 0).byte0 = (atByte 0xFF7 0xFF7 0x30).mem.read (atByte 0xFF7 0xFF7 0x30).pc.toNat ∧
      (atByte 0xFF7 0xFF7 0x30).memCapacity < (atByte 0xFF7 0xFF7 0x30).pc.toNat + (Instr.irmovq 0 0 0).length) ∧
    ((atByte 0xFF6 0xFF6 0x30).pc.toNat < (atByte 0xFF6 0xFF6 0x30).memCapacity ∧
      (Instr.irmovq 0 0 0).byte0 = (atByte 0xFF6 0xFF6 0x30).mem.read (atByte 0xFF6 0xFF6 0x30).pc.toNat) ∧
    (State.reset.pc.toNat < State.reset.memCapacity ∧ Instr.halt.byte0 = State.reset.mem.read State.reset.pc.toNat) :=
  ⟨by decide, ⟨by decide, no_instruction_F0⟩, by decide, by decide, by decide⟩
theorem witness_PCSelection :
    ((cycle mispredicted).M.icode = .IJXX ∧ (cycle mispredicted).M.Cnd = false) ∧
    (¬((cycle (cycle (cycle returning))).M.icode = .IJXX ∧ (cycle (cycle (cycle returning))).M.Cnd = false) ∧
      (cycle (cycle (cycle returning))).W.icode = .IRET) ∧
    (¬(State.reset.M.icode = .IJXX ∧ State.reset.M.Cnd = false) ∧ State.reset.W.icode ≠ .IRET) ∧
    ({ LatchE.bubble with icode := .IJXX } : LatchE).ifun = 0 ∧
    (fetchSlot (atByte 0 0 0x70) 0).icode = .IJXX := by decide
theorem witness_FetchedFields :
    (fetchSlot State.reset 0x1000).stat = .ADR ∧ (fetchSlot (atByte 0 0 0xF0) 0).stat = .INS ∧
    (fetchSlot State.reset 0).stat ≠ .ADR ∧ (fetchSlot State.reset 0).stat ≠ .INS := by decide
theorem witness_StepFetchesDecoded :
    State.reset.run = .running ∧ instrAt State.reset (fetchPC State.reset) .halt ∧
    modeD State.reset = .NORMAL ∧ modeF State.reset = .NORMAL := by decide
theorem witness_ExceptionalFetchRepeats :
    step State.reset = .next (cycle State.reset) ∧ (dIn State.reset).stat.isExc = true ∧
    modeF State.reset = .NORMAL ∧ modeD State.reset = .NORMAL ∧
    fetchPC (cycle State.reset) = (cycle State.reset).F.predPC ∧ (cycle State.reset).mem = State.reset.mem :=
  ⟨rfl, by decide⟩
theorem witness_StepFrame :
    step flowing = .next (cycle flowing) ∧ (3 : RegId) ≠ flowing.W.dstE ∧ (3 : RegId) ≠ flowing.W.dstM ∧
    flowing.E.icode ≠ .IOPQ ∧ (mStat faulting.M faulting).isExc = true ∧ halting.W.stat.isExc = true ∧
    isStore flowing.M.icode = false ∧ faulting.mem.wf ∧
    ¬((memAddr faulting.M).toNat ≤ 5 ∧ 5 < (memAddr faulting.M).toNat + 8) ∧ flowing.W.stat.isExc = false :=
  ⟨rfl, by decide, by decide, by decide, by decide, by decide, by decide, Memory.wf_nil,
    by decide, by decide⟩
theorem witness_ControlModes :
    (loaduse flowing = false ∧ mispredict flowing = false ∧ retInFlight flowing = false) ∧
    (loaduse loadUse = true ∧ retInFlight loadUse = false) ∧
    (mispredict mispredicted = true ∧ retInFlight mispredicted = false) ∧
    (retInFlight returning = true ∧ loaduse returning = false ∧ mispredict returning = false) ∧
    (mispredict { returning with E := mispredicted.E } = true ∧
      retInFlight { returning with E := mispredicted.E } = true) ∧
    (loaduse { returning with E := { loadUse.E with dstM := RRSP } } = true ∧
      retInFlight { returning with E := { loadUse.E with dstM := RRSP } } = true) := by decide
theorem witness_HazardsExclude : flowLegal flowing := by decide
theorem witness_ForwardedOperandIsArchitectural :
    slotsLegal flowing ∧
    (((flowing.drained.andThen (finishW flowing.W)).andThen (finishM flowing.M)).andThen (finishE flowing.E)).run =
      .running ∧
    ¬((flowing.E.icode = .IMRMOVQ ∨ flowing.E.icode = .IPOPQ) ∧ flowing.E.dstM = RRDX ∧ RRDX ≠ RNONE) := by decide
theorem witness_LoadUseCostsOneCycle :
    loadUse.run = .running ∧ loaduse loadUse = true ∧ excMW loadUse = false ∧
    srcA (cycle loadUse).D.icode (cycle loadUse).D.rA = loadUse.E.dstM := by decide
theorem witness_LoadUseCostsOneCycle_srcB :
    loaduse { loadUse with E := { loadUse.E with dstM := 3 } } = true ∧
    excMW { loadUse with E := { loadUse.E with dstM := 3 } } = false ∧
    srcB loadUse.D.icode loadUse.D.rB = 3 := by decide
theorem witness_MispredictionSquashesTwo :
    mispredicted.run = .running ∧ mispredict mispredicted = true ∧ excMW mispredicted = false := by decide
theorem witness_ReturnCostsThreeCycles :
    returning.run = .running ∧ returning.D.icode = .IRET ∧ loaduse returning = false ∧ mispredict returning = false ∧
    (cycles 3 returning).run = .running := by decide
theorem witness_ExceptionContainment :
    step faulting = .next (cycle faulting) ∧ excMW faulting = true ∧
    flowLegal halting ∧ step halting = .next (cycle halting) ∧ halting.W.stat.exc? = some .HLT :=
  ⟨rfl, by decide, by decide, rfl, by decide⟩
theorem witness_StoppedIsFinal : stopped.run = .stopped .INS := by decide
theorem witness_StepKeepsMemoryLegal :
    step flowing = .next (cycle flowing) ∧ capacityLegal flowing ∧ memoryLegal flowing := ⟨rfl, by decide⟩
theorem witness_StepKeepsSlotsLegal : step flowing = .next (cycle flowing) ∧ slotsLegal flowing := ⟨rfl, by decide⟩
theorem witness_StepKeepsFlowLegal : step flowing = .next (cycle flowing) ∧ flowLegal flowing := ⟨rfl, by decide⟩
theorem witness_ResetLegal :
    (1 ≤ 2 ^ 64 ∧ 2 ^ 64 ≤ 2 ^ 64) ∧ Memory.wf [(0, 0x90)] ∧ (∀ c ∈ ([(0, 0x90)] : Memory), c.1 < 1) := by decide
theorem witness_StepRealisesExec :
    flowing.run = .running ∧ slotsLegal flowing ∧ flowLegal flowing ∧
    instrAt flowing (fetchPC flowing) (.xorq 0 3) ∧ issues flowing := by decide
theorem witness_StepRefinesStraightLine :
    (flowing.run = .running ∧ slotsLegal flowing ∧ flowLegal flowing ∧ issues flowing ∧ fetchFresh flowing) ∧
    (issues (cycles 2 storeBehindHalt) ∧ fetchFresh (cycles 2 storeBehindHalt)) := by decide
theorem witness_StepWithoutIssueKeepsState :
    loadUse.run = .running ∧ slotsLegal loadUse ∧ flowLegal loadUse ∧ ¬issues loadUse := by decide
theorem witness_RunMatchesStraightLine :
    (∀ k, k < 5 → issues (cycles k (State.boot 4096 [])) → fetchFresh (cycles k (State.boot 4096 []))) ∧
    (cycles 5 (State.boot 4096 [])).run = .stopped .HLT := by decide
theorem witness_RunMatchesStraightLine_ExceptionsArePrecise :
    (∀ k, k < 7 → issues (cycles k storeBehindHalt) → fetchFresh (cycles k storeBehindHalt)) ∧
    (cycles 7 storeBehindHalt).run = .stopped .HLT := by decide
theorem witness_ExceptionsArePrecise :
    halting.run = .running ∧ slotsLegal halting ∧ flowLegal halting ∧
    (∀ k, k < 1 → issues (cycles k halting) → fetchFresh (cycles k halting)) ∧
    (cycles 1 halting).run = .stopped .HLT := by decide
theorem witness_NoStoreInFlightIsFresh_store :
    (cycles 2 storeBehindHalt).mem.wf ∧ isStore (cycles 2 storeBehindHalt).D.icode = true ∧
    fetchPC (cycles 2 storeBehindHalt) = 0x14 ∧ (fetchSlot (cycles 2 storeBehindHalt) 0x14).valP = 0x15 ∧
    ∀ m ∈ memoryStages (cycles 2 storeBehindHalt), ¬storesTo m 0x14 := by decide
theorem witness_NoStoreInFlightIsFresh :
    isStore flowing.D.icode = false ∧ isStore flowing.E.icode = false ∧ isStore flowing.M.icode = false := by decide
theorem witness_EmptyPipelineRunsExec :
    (State.reset.run = .running ∧ pipelineEmpty State.reset ∧ instrAt State.reset State.reset.pc .halt) ∧
    (instrAt (State.reset.withFetchWord 8 0x74) (State.reset.withFetchWord 8 0x74).pc (.jne 0) ∧
      Machine.cond (State.reset.withFetchWord 8 0x74).cc (Instr.jne 0).ifun = false) ∧
    instrAt (State.reset.withFetchWord 8 0x90) (State.reset.withFetchWord 8 0x90).pc .ret := by decide
theorem witness_ResetState : ∀ c ∈ ([(0, 0x90)] : Memory), c.1 ≠ 1 := by decide
theorem witness_LoadedImage :
    loadImage 16 [none, some (DataLine.mk 0 [0x30, 0xF2]), some (DataLine.mk 2 [0x0A])] =
      .ok [(0, 0x30), (1, 0xF2), (2, 0x0A)] := rfl
theorem witness_DriverCountsCycles :
    (drive 5 State.reset).isSome = true ∧ drive 4 State.reset = none := by decide
theorem witness_HaltAloneTakesFiveCycles :
    (drive 5 (State.boot 1 [])).isSome = true ∧ drive 4 (State.boot 1 []) = none := by decide

end Sys2Proof.Tests
end

section
/-! PROOFS. A valid store and the load that follows it (00_scope.md R16, 20_memory.md R52, R53). -/

namespace Sys2Proof.Machine

/-- A valid data write writes the word and reports no error (R55). -/
theorem State.memWrite_of_valid {s : State} {a : Word} (h : a.toNat + 8 ≤ s.memCapacity) (v : Word) :
    s.memWrite a v = (s.mem.writeWord a.toNat v, false) := by
  rw [State.memWrite_eq, if_pos h]

/-- A valid data read reads the word and reports no error (R55). -/
theorem State.memRead_of_valid {s : State} {a : Word} (h : a.toNat + 8 ≤ s.memCapacity) :
    s.memRead a = (s.mem.readWord a.toNat, false) := by
  rw [State.memRead_eq, if_pos h]

/-- Settles O7: a valid store is a word write, and a word write is known by its reads. -/
theorem storeThenLoad : Obligations.StoreThenLoad := by
  intro s a v hwf hvalid
  rw [State.memWrite_of_valid hvalid]
  refine ⟨rfl, Memory.read_writeWord hwf a.toNat v, ?_⟩
  have hread := State.memRead_of_valid (s := { s with mem := s.mem.writeWord a.toNat v }) hvalid
  rw [hread, Memory.readWord_writeWord hwf]

end Sys2Proof.Machine
end

section
/-! PROOFS. An instruction's encoding decodes to it, and Fetch delivers its slot (30_encoding.md R72 to R83,
41_fetch.md R106 to R109). -/

namespace Sys2Proof

/-- The decoder undoes the encoder and leaves the bytes after it (R72 to R75). -/
theorem decode_encode (i : Instr) (rest : List Byte) : decode (encode i ++ rest) = .ok i rest := by
  cases i <;> simp [decode, opcodeMap, decodeOperands]

namespace Machine

/-- The window Fetch decodes is long enough for an instruction that lies in memory (R106). -/
theorem fetchInstr_of_instrAt {s : State} {pc : Word} {i : Instr} (h : instrAt s pc i) :
    ∃ rest, fetchInstr s pc = .ok i rest := by
  obtain ⟨hcap, hbytes⟩ := h
  obtain ⟨n, hn⟩ : ∃ n, min Config.maxInstrBytes (s.memCapacity - pc.toNat) = i.length + n :=
    Nat.exists_eq_add_of_le (le_min i.length_bounds.2 (by omega))
  rw [fetchInstr, fetchWindow, hn, Memory.readBytes_add, hbytes]
  exact ⟨_, decode_encode i _⟩

theorem fetchSlot_of_instrAt {s : State} {pc : Word} {i : Instr} (h : instrAt s pc i) :
    fetchSlot s pc = instrSlot i pc := by
  obtain ⟨rest, hf⟩ := fetchInstr_of_instrAt h
  rw [fetchSlot, hf]

end Machine

end Sys2Proof
end

section
/-! PROOFS. Completing an instruction alone computes its sequential effect (00_scope.md R21): first by the kind of its
data access, then by its instruction code, then for each of the 27 instructions. -/

namespace Sys2Proof.Machine

/-! ### By the data access (44_memory_stage.md R145 to R151) -/

section access

variable {m : LatchM} (a : State)

/-- With no data access only a mispredicted jump moves the pc. -/
theorem finishM_of_noAccess (hl : isLoad m.icode = false) (hst : isStore m.icode = false) :
    finishM m a =
      State.retire
        { a with
          regs := (a.regs.write m.dstE m.valE).write m.dstM 0
          F := if m.icode = .IJXX ∧ m.Cnd = false then { predPC := m.valA } else a.F }
        m.stat := by
  have hret : m.icode ≠ .IRET := fun h => by simp [h, isLoad] at hl
  simp [finishM, finishW, wIn, mMem, mValM, mStat, dmemError, writebackRegs, hl, hst, hret]

theorem finishM_of_isStore (hst : isStore m.icode = true) (hs : m.stat = .AOK) :
    finishM m a =
      { a.store (memAddr m) m.valA with regs := (a.regs.write m.dstE m.valE).write m.dstM 0 } := by
  have hl : isLoad m.icode = false := by cases h : m.icode <;> simp_all [isLoad, isStore]
  have hj : m.icode ≠ .IJXX := fun h => by simp [h, isStore] at hst
  have hret : m.icode ≠ .IRET := fun h => by simp [h, isLoad] at hl
  simp [finishM, finishW, wIn, mMem, mValM, mStat, dmemError, writebackRegs, State.store, State.retire, hl, hst, hs,
    hj, hret]

theorem finishM_of_isLoad (hl : isLoad m.icode = true) (hs : m.stat = .AOK) :
    finishM m a =
      State.retire
        { a with
          regs := (a.regs.write m.dstE m.valE).write m.dstM (a.memRead (memAddr m)).1
          F := if m.icode = .IRET then { predPC := (a.memRead (memAddr m)).1 } else a.F }
        (a.loadStat (memAddr m)) := by
  have hst : isStore m.icode = false := by cases h : m.icode <;> simp_all [isLoad, isStore]
  have hj : m.icode ≠ .IJXX := fun h => by simp [h, isLoad] at hl
  simp [finishM, finishW, wIn, mMem, mValM, mStat, dmemError, writebackRegs, State.loadStat, hl, hst, hs, hj]

end access

/-! ### By the instruction code (R116 to R142) -/

/-- Unless it sets the condition codes, an instruction completes from D as it does from the latch M it will have. -/
theorem finishD_of_mIn {d : LatchD} {a : State} {m : LatchM} (hcc : setsCC d.icode = false)
    (hm : mIn (eInWith a.readReg d) a.cc = m) : finishD d a = finishM m a := by
  subst hm
  simp [finishD, finishE, eCC, eInWith, hcc]

/-- The ALU passes a constant through (R131, R132). -/
theorem alu_ADD_zero (a : Word) : alu ADD a 0 = a := BitVec.zero_add a

/-- The ALU moves the stack pointer of a push or call (R131). -/
theorem alu_ADD_neg8 (b : Word) : alu ADD (-8) b = b - 8 := (BitVec.sub_eq_add_neg b 8).symm

section codes

variable {d : LatchD} (a : State)

theorem finishD_of_IHALT (hc : d.icode = .IHALT) (hs : d.stat = .HLT) : finishD d a = a.retire .HLT := by
  cases d; subst hc hs; rfl

theorem finishD_of_INOP (hc : d.icode = .INOP) (hs : d.stat = .AOK) : finishD d a = a := by
  cases d; subst hc hs; rfl

theorem finishD_of_IOPQ (hc : d.icode = .IOPQ) (hs : d.stat = .AOK) :
    finishD d a = opq d.ifun d.rA d.rB a.pc a := by
  cases d; subst hc hs; rfl

theorem finishD_of_IRRMOVQ (hc : d.icode = .IRRMOVQ) (hs : d.stat = .AOK) :
    finishD d a = moveIf d.ifun d.rA d.rB a.pc a := by
  obtain ⟨st, ic, fn, rA, rB, v, p⟩ := d
  subst hc hs
  have hm : mIn (eInWith a.readReg ⟨.AOK, .IRRMOVQ, fn, rA, rB, v, p⟩) a.cc =
      ⟨.AOK, .IRRMOVQ, cond a.cc fn, a.readReg rA, a.readReg rA, if cond a.cc fn then rB else RNONE, RNONE⟩ := by
    cases h : cond a.cc fn <;>
      simp [mIn, eInWith, eCnd, eDstE, eValE, aluA, aluB, alufun, alu, srcA, dstE, dstM, h]
  rw [finishD_of_mIn rfl hm, finishM_of_noAccess a rfl rfl, moveIf]
  cases cond a.cc fn <;> rfl

theorem finishD_of_IIRMOVQ (hc : d.icode = .IIRMOVQ) (hs : d.stat = .AOK) :
    finishD d a = a.writeReg d.rB d.valC := by
  obtain ⟨st, ic, fn, rA, rB, v, p⟩ := d
  subst hc hs
  have hm : mIn (eInWith a.readReg ⟨.AOK, .IIRMOVQ, fn, rA, rB, v, p⟩) a.cc =
      ⟨.AOK, .IIRMOVQ, false, v, 0, rB, RNONE⟩ :=
    congrArg (LatchM.mk .AOK .IIRMOVQ false · 0 rB RNONE) (alu_ADD_zero v)
  rw [finishD_of_mIn rfl hm, finishM_of_noAccess a rfl rfl]
  rfl

/-- The pc before it is the predicted target: a jump not taken corrects it (R110, R168). -/
theorem finishD_of_IJXX (hc : d.icode = .IJXX) (hs : d.stat = .AOK) :
    finishD d a = jumpIf d.ifun a.pc d.valP a := by
  obtain ⟨st, ic, fn, rA, rB, v, p⟩ := d
  subst hc hs
  rw [finishD_of_mIn rfl rfl, finishM_of_noAccess a rfl rfl, jumpIf]
  cases h : cond a.cc fn <;> simp [mIn, eInWith, eCnd, h] <;> rfl

theorem finishD_of_IRMMOVQ (hc : d.icode = .IRMMOVQ) (hs : d.stat = .AOK) :
    finishD d a = a.store (a.effectiveAddr d.rB d.valC) (a.readReg d.rA) := by
  cases d; subst hc hs
  rw [finishD_of_mIn rfl rfl, finishM_of_isStore a rfl rfl]
  rfl

theorem finishD_of_IMRMOVQ (hc : d.icode = .IMRMOVQ) (hs : d.stat = .AOK) :
    finishD d a =
      (a.writeReg d.rA (a.memRead (a.effectiveAddr d.rB d.valC)).1).retire
        (a.loadStat (a.effectiveAddr d.rB d.valC)) := by
  cases d; subst hc hs
  rw [finishD_of_mIn rfl rfl, finishM_of_isLoad a rfl rfl]
  rfl

theorem finishD_of_IPUSHQ (hc : d.icode = .IPUSHQ) (hs : d.stat = .AOK) :
    finishD d a = (a.store a.pushAddr (a.readReg d.rA)).writeReg RRSP a.pushAddr := by
  obtain ⟨st, ic, fn, rA, rB, v, p⟩ := d
  subst hc hs
  have hm : mIn (eInWith a.readReg ⟨.AOK, .IPUSHQ, fn, rA, rB, v, p⟩) a.cc =
      ⟨.AOK, .IPUSHQ, false, a.pushAddr, a.readReg rA, RRSP, RNONE⟩ :=
    congrArg (LatchM.mk .AOK .IPUSHQ false · (a.readReg rA) RRSP RNONE) (alu_ADD_neg8 (a.readReg RRSP))
  rw [finishD_of_mIn rfl hm, finishM_of_isStore a rfl rfl]
  rfl

theorem finishD_of_ICALL (hc : d.icode = .ICALL) (hs : d.stat = .AOK) :
    finishD d a = (a.store a.pushAddr d.valP).writeReg RRSP a.pushAddr := by
  obtain ⟨st, ic, fn, rA, rB, v, p⟩ := d
  subst hc hs
  have hm : mIn (eInWith a.readReg ⟨.AOK, .ICALL, fn, rA, rB, v, p⟩) a.cc =
      ⟨.AOK, .ICALL, false, a.pushAddr, p, RRSP, RNONE⟩ :=
    congrArg (LatchM.mk .AOK .ICALL false · p RRSP RNONE) (alu_ADD_neg8 (a.readReg RRSP))
  rw [finishD_of_mIn rfl hm, finishM_of_isStore a rfl rfl]
  rfl

theorem finishD_of_IRET (hc : d.icode = .IRET) (hs : d.stat = .AOK) :
    finishD d a =
      ((a.writeReg RRSP (a.popAddr + 8)).setPC (a.memRead a.popAddr).1).retire (a.loadStat a.popAddr) := by
  cases d; subst hc hs
  rw [finishD_of_mIn rfl rfl, finishM_of_isLoad a rfl rfl]
  rfl

theorem finishD_of_IPOPQ (hc : d.icode = .IPOPQ) (hs : d.stat = .AOK) :
    finishD d a =
      ((a.writeReg RRSP (a.popAddr + 8)).writeReg d.rA (a.memRead a.popAddr).1).retire (a.loadStat a.popAddr) := by
  cases d; subst hc hs
  rw [finishD_of_mIn rfl rfl, finishM_of_isLoad a rfl rfl]
  rfl

end codes

/-! ### By the instruction (R177 to R206) -/

/-- A conditional move overwrites the pc and does not read it. -/
theorem moveIf_setPC (fn : Nibble) (rA rB : RegId) (p q : Word) (s : State) :
    moveIf fn rA rB p (s.setPC q) = moveIf fn rA rB p s := by
  cases h : Machine.cond s.cc fn <;> simp [moveIf, h] <;> rfl

/-- An instruction's sequential effect is its completion from D, the predicted address standing for the pc. -/
theorem exec_eq_finishD (i : Instr) (a : State) :
    exec i a = .next (finishD (instrSlot i a.pc) (a.setPC (predictPC (instrSlot i a.pc) a.pc))) := by
  cases i with
  | halt => rw [finishD_of_IHALT _ rfl rfl]; rfl
  | nop => rw [finishD_of_INOP _ rfl rfl]; rfl
  | rrmovq rA rB => rw [finishD_of_IRRMOVQ _ rfl rfl]; rfl
  | cmovle rA rB => rw [finishD_of_IRRMOVQ _ rfl rfl, moveIf_setPC]; rfl
  | cmovl rA rB => rw [finishD_of_IRRMOVQ _ rfl rfl, moveIf_setPC]; rfl
  | cmove rA rB => rw [finishD_of_IRRMOVQ _ rfl rfl, moveIf_setPC]; rfl
  | cmovne rA rB => rw [finishD_of_IRRMOVQ _ rfl rfl, moveIf_setPC]; rfl
  | cmovge rA rB => rw [finishD_of_IRRMOVQ _ rfl rfl, moveIf_setPC]; rfl
  | cmovg rA rB => rw [finishD_of_IRRMOVQ _ rfl rfl, moveIf_setPC]; rfl
  | irmovq unused rB v => rw [finishD_of_IIRMOVQ _ rfl rfl]; rfl
  | rmmovq rA rB v => rw [finishD_of_IRMMOVQ _ rfl rfl]; rfl
  | mrmovq rA rB v => rw [finishD_of_IMRMOVQ _ rfl rfl]; rfl
  | addq rA rB => rw [finishD_of_IOPQ _ rfl rfl]; rfl
  | subq rA rB => rw [finishD_of_IOPQ _ rfl rfl]; rfl
  | andq rA rB => rw [finishD_of_IOPQ _ rfl rfl]; rfl
  | xorq rA rB => rw [finishD_of_IOPQ _ rfl rfl]; rfl
  | jmp v => rw [finishD_of_IJXX _ rfl rfl]; rfl
  | jle v => rw [finishD_of_IJXX _ rfl rfl]; rfl
  | jl v => rw [finishD_of_IJXX _ rfl rfl]; rfl
  | je v => rw [finishD_of_IJXX _ rfl rfl]; rfl
  | jne v => rw [finishD_of_IJXX _ rfl rfl]; rfl
  | jge v => rw [finishD_of_IJXX _ rfl rfl]; rfl
  | jg v => rw [finishD_of_IJXX _ rfl rfl]; rfl
  | call v => rw [finishD_of_ICALL _ rfl rfl]; rfl
  | ret => rw [finishD_of_IRET _ rfl rfl]; rfl
  | pushq rA unused => rw [finishD_of_IPUSHQ _ rfl rfl]; rfl
  | popq rA unused => rw [finishD_of_IPOPQ _ rfl rfl]; rfl

/-- Settles O46: for each instruction, by the completion of its instruction code. -/
theorem stagesComputeSequentialEffect : Obligations.StagesComputeSequentialEffect := exec_eq_finishD

end Sys2Proof.Machine
end

section
/-! PROOFS. The architectural state after each stage's instruction, and what forwarding reads (42_decode.md R121 to
R126; log entry 6). -/

namespace Sys2Proof.Machine

/-! ### Running and stopping -/

theorem RunStatus.afterRetire_eq_running_iff (r : RunStatus) (st : Stat) :
    r.afterRetire st = .running ↔ r = .running ∧ st.isExc = false := by
  rcases r.afterRetire_cases st with ⟨hst, h⟩ | ⟨e, _, hst, h⟩ <;> simp [h, hst]

theorem State.andThen_run_eq_running_iff {a : State} {f : State → State} :
    (a.andThen f).run = .running ↔ a.run = .running ∧ (f a).run = .running := by
  cases h : a.run with
  | running => simp [State.andThen_of_running h]
  | stopped e => simp [State.andThen_of_stopped h, h]

@[simp] theorem State.atStop_run (a : State) : a.atStop.run = a.run := by
  cases h : a.run with
  | running => rw [State.atStop_of_running h, h]
  | stopped e => rw [State.atStop_of_stopped h, State.setPC_run, h]

/-! ### `settle`, stage by stage -/

/-- The architectural state once the instruction in W has completed. -/
def afterW (s : State) : State := finishW s.W s.drained

/-- The architectural state once the instructions in W and M have completed, the run going on. -/
def afterM (s : State) : State := finishM s.M (afterW s)

/-- The architectural state once the instructions in W, M and E have completed, the run going on. -/
def afterE (s : State) : State := finishE s.E (afterM s)

/-- The architectural state once the instructions in W, M, E and D have completed, the run going on. -/
def afterD (s : State) : State := finishD s.D (afterE s)

theorem settle_of_noMispredict {s : State} (hm : mispredict s = false) :
    settle s =
      ((((s.drained.andThen (finishW s.W)).andThen (finishM s.M)).andThen (finishE s.E)).andThen
        (finishD s.D)).atStop := by
  simp [settle, hm]

/-- What `settle` is when no instruction older than the one in D stops the run. -/
theorem settle_eq_atStop_afterD {s : State} (hm : mispredict s = false) (hs : s.run = .running)
    (hW : (afterW s).run = .running) (hM : (afterM s).run = .running) (hE : (afterE s).run = .running) :
    settle s = (afterD s).atStop := by
  have eW : s.drained.andThen (finishW s.W) = afterW s := State.andThen_of_running (a := s.drained) hs _
  have eM : (afterW s).andThen (finishM s.M) = afterM s := State.andThen_of_running hW _
  have eE : (afterM s).andThen (finishE s.E) = afterE s := State.andThen_of_running hM _
  have eD : (afterE s).andThen (finishD s.D) = afterD s := State.andThen_of_running hE _
  rw [settle_of_noMispredict hm, eW, eM, eE, eD]

/-- A running architectural state means that no instruction in flight stops the run. -/
theorem after_running_of_settle_running {s : State} (hm : mispredict s = false) (hr : (settle s).run = .running) :
    (afterW s).run = .running ∧ (afterM s).run = .running ∧ (afterE s).run = .running ∧
      (afterD s).run = .running := by
  rw [settle_of_noMispredict hm, State.atStop_run] at hr
  obtain ⟨hE, hD⟩ := State.andThen_run_eq_running_iff.1 hr
  obtain ⟨hM, -⟩ := State.andThen_run_eq_running_iff.1 hE
  obtain ⟨hW, -⟩ := State.andThen_run_eq_running_iff.1 hM
  obtain ⟨hs, -⟩ := State.andThen_run_eq_running_iff.1 hW
  have eW : s.drained.andThen (finishW s.W) = afterW s := State.andThen_of_running hs _
  rw [eW] at hW hM hE hD
  have eM : (afterW s).andThen (finishM s.M) = afterM s := State.andThen_of_running hW _
  rw [eM] at hM hE hD
  have eE : (afterM s).andThen (finishE s.E) = afterE s := State.andThen_of_running hM _
  rw [eE] at hE hD
  exact ⟨hW, hM, hE, hD⟩

/-! ### The Memory stage does not see what Writeback did (R59) -/

theorem wIn_afterW (m : LatchM) (s : State) : wIn m (afterW s) = wIn m s := (memoryStage_congr m rfl rfl).1

theorem mMem_afterW (m : LatchM) (s : State) : mMem m (afterW s) = mMem m s := (memoryStage_congr m rfl rfl).2

/-- The state after M's instruction, by the signals of the pre-cycle state. -/
theorem afterM_eq (s : State) :
    afterM s = finishW (wIn s.M s)
      { afterW s with
        mem := mMem s.M s
        F := if s.M.icode = .IJXX ∧ s.M.Cnd = false then { predPC := s.M.valA } else (afterW s).F } := by
  rw [afterM, finishM, wIn_afterW, mMem_afterW]

theorem afterM_run (s : State) : (afterM s).run = (afterW s).run.afterRetire (mStat s.M s) := by
  rw [afterM_eq]; rfl

/-- PC selection reads the pc that the instructions in W and M leave (R102). -/
theorem afterM_pc {s : State} (hret : s.M.icode ≠ .IRET) : (afterM s).pc = fetchPC s := by
  have hret' : (wIn s.M s).icode ≠ .IRET := hret
  by_cases hj : s.M.icode = .IJXX ∧ s.M.Cnd = false
  · simp [afterM_eq, State.pc, fetchPC, finishW, hret', hj]
  · by_cases hW : s.W.icode = .IRET <;> simp [afterM_eq, State.pc, fetchPC, finishW, hret', hj, afterW, hW]

/-! ### Forwarding (R121 to R126) -/

/-- A register once W, M and E have completed holds the youngest of their writes, and of one instruction's two the
memory result. -/
theorem afterE_readReg (s : State) (id : RegId) :
    (afterE s).readReg id =
      if s.E.dstM = id ∧ s.E.dstM ≠ RNONE then mValM (mIn s.E s.cc) (afterM s)
      else if eDstE s.E s.cc = id ∧ eDstE s.E s.cc ≠ RNONE then eValE s.E
      else if s.M.dstM = id ∧ s.M.dstM ≠ RNONE then mValM s.M s
      else if s.M.dstE = id ∧ s.M.dstE ≠ RNONE then s.M.valE
      else if s.W.dstM = id ∧ s.W.dstM ≠ RNONE then s.W.valM
      else if s.W.dstE = id ∧ s.W.dstE ≠ RNONE then s.W.valE
      else s.readReg id := by
  have hregs : (afterE s).regs =
      writebackRegs (wIn (mIn s.E s.cc) (afterM s)) (writebackRegs (wIn s.M s) (writebackRegs s.W s.regs)) := by
    rw [← wIn_afterW]; rfl
  simp only [State.readReg, hregs, read_writebackRegs]
  rfl

/-- The forwarding sources stand in the order of `afterE_readReg`, all but the result of a load in E (R126). -/
theorem operandValue_eq_readReg_afterE {s : State} {src : RegId} (h : s.E.dstM ≠ RNONE → src ≠ s.E.dstM) :
    operandValue s src = (afterE s).readReg src := by
  by_cases hsrc : src = RNONE
  · simp [hsrc]
  · have notLoaded : ¬(s.E.dstM = src ∧ s.E.dstM ≠ RNONE) := fun ⟨e, hne⟩ => h hne e.symm
    have named (dst : RegId) : (dst = src ∧ dst ≠ RNONE) ↔ src = dst :=
      ⟨fun e => e.1.symm, fun e => ⟨e.symm, e ▸ hsrc⟩⟩
    rw [afterE_readReg, if_neg notLoaded]
    simp only [operandValue, forwarded, forwardSources, named, if_neg hsrc]

/-- With no load-use hazard the instruction in D reads no register that a load in E will write (R160). -/
theorem sources_ne_dstM_of_noLoaduse {s : State} (hl : loaduse s = false) (hs : slotsLegal s)
    (hne : s.E.dstM ≠ RNONE) :
    srcA s.D.icode s.D.rA ≠ s.E.dstM ∧ srcB s.D.icode s.D.rB ≠ s.E.dstM := by
  obtain ⟨-, ⟨-, -, hdest⟩, -, -⟩ := hs
  have hload : s.E.icode = .IMRMOVQ ∨ s.E.icode = .IPOPQ := by
    cases hi : s.E.icode <;> simp_all [destsFit]
  simp [loaduse, hload, hne] at hl
  exact ⟨Ne.symm hl.1, Ne.symm hl.2⟩

/-- With no load-use hazard Decode reads the operands the older instructions leave (R126). -/
theorem eIn_eq_eInWith_afterE {s : State} (hl : loaduse s = false) (hs : slotsLegal s) :
    eIn s = eInWith (afterE s).readReg s.D := by
  have hA := operandValue_eq_readReg_afterE (src := srcA s.D.icode s.D.rA)
    fun hne => (sources_ne_dstM_of_noLoaduse hl hs hne).1
  have hB := operandValue_eq_readReg_afterE (src := srcB s.D.icode s.D.rB)
    fun hne => (sources_ne_dstM_of_noLoaduse hl hs hne).2
  simp only [eIn, eInWith, hA, hB]

/-! ### The pc along the completion -/

/-- An instruction that is no ret and no mispredicted jump leaves the pc, whatever it is. -/
theorem finishM_setPC {m : LatchM} (hret : m.icode ≠ .IRET) (hj : ¬(m.icode = .IJXX ∧ m.Cnd = false)) (c : State)
    (p : Word) : finishM m (c.setPC p) = (finishM m c).setPC p := by
  rw [State.setPC, finishM_withF, if_neg hret, if_neg hj]
  rfl

/-- The same for an instruction in E. -/
theorem finishE_setPC {e : LatchE} {c : State} (hret : e.icode ≠ .IRET)
    (hj : ¬(e.icode = .IJXX ∧ eCnd e c.cc = false)) (p : Word) :
    finishE e (c.setPC p) = (finishE e c).setPC p := by
  rw [State.setPC, finishE_withF, if_neg hret, if_neg hj]
  rfl

theorem finishE_pc {e : LatchE} {c : State} (hret : e.icode ≠ .IRET)
    (hj : ¬(e.icode = .IJXX ∧ eCnd e c.cc = false)) : (finishE e c).pc = c.pc := by
  calc (finishE e c).pc = (finishE e (c.setPC c.pc)).pc := rfl
    _ = c.pc := by rw [finishE_setPC hret hj, State.setPC_pc]

end Sys2Proof.Machine
end

section
/-! PROOFS. An issuing step, seen through `settle`: each latch's instruction moves one stage on, the instruction fetched
enters behind them, and the architectural state gains its effect (40_pipeline_cycle.md R94, R100). -/

namespace Sys2Proof.Machine

/-! ### The hazard conditions (R159 to R164) -/

theorem modeD_eq_NORMAL_iff (s : State) :
    modeD s = .NORMAL ↔ mispredict s = false ∧ loaduse s = false ∧ retInFlight s = false := by
  cases hm : mispredict s <;> cases hl : loaduse s <;> cases hr : retInFlight s <;> simp [modeD, hm, hl, hr]

theorem retInFlight_eq_false_iff (s : State) :
    retInFlight s = false ↔ s.D.icode ≠ .IRET ∧ s.E.icode ≠ .IRET ∧ s.M.icode ≠ .IRET := by
  simp [retInFlight, and_assoc]

theorem mispredict_eq_false_iff (s : State) :
    mispredict s = false ↔ ¬(s.E.icode = .IJXX ∧ eCnd s.E s.cc = false) := by
  simp [mispredict]

/-- The fetch is on the wrong path exactly when the jump in D will be mispredicted in E. -/
theorem wrongPath_eq_false_iff (s : State) (value : RegId → Word) :
    wrongPath s = false ↔
      ¬((eInWith value s.D).icode = .IJXX ∧ eCnd (eInWith value s.D) (eCC s.E s.cc) = false) := by
  by_cases h : s.D.icode = .IJXX <;> simp [wrongPath, eInWith, eCnd, h]

/-! ### A cycle with no exception in M or W, and no ret in M -/

theorem cycle_cc_of_noExc {s : State} (h : excMW s = false) : (cycle s).cc = eCC s.E s.cc := by
  obtain ⟨hM, hW⟩ : (mStat s.M s).isExc = false ∧ s.W.stat.isExc = false := by simpa [excMW] using h
  cases hcc : setsCC s.E.icode <;> simp [setCC, eCC, hM, hW, hcc]

/-- A cycle moves M's instruction into W, its memory access made and its register writes to come. -/
theorem afterW_cycle {s : State} (hret : s.M.icode ≠ .IRET) :
    afterW (cycle s) = ((afterM s).setCC (cycle s).cc).setPC (cycle s).pc := by
  have hret' : (wIn s.M s).icode ≠ .IRET := hret
  rw [afterM_eq]
  simp only [afterW, finishW, cycle_W, hret', if_false]
  rfl

/-! ### An issuing cycle -/

/-- What `issues` says, condition by condition: no hazard, no exception in M or W, and a run that goes on past every
instruction in flight. -/
structure Issued (s : State) : Prop where
  mispredict_false : mispredict s = false
  loaduse_false : loaduse s = false
  retInFlight_false : retInFlight s = false
  wrongPath_false : wrongPath s = false
  excMW_false : excMW s = false
  afterW_running : (afterW s).run = .running
  afterM_running : (afterM s).run = .running
  afterE_running : (afterE s).run = .running
  afterD_running : (afterD s).run = .running

theorem issued_of_issues {s : State} (h : issues s) : Issued s := by
  obtain ⟨hD, hpath, hrun⟩ := h
  obtain ⟨hm, hl, hr⟩ := (modeD_eq_NORMAL_iff s).1 hD
  obtain ⟨rW, rM, rE, rD⟩ := after_running_of_settle_running hm hrun
  have hW : s.W.stat.isExc = false := ((RunStatus.afterRetire_eq_running_iff _ _).1 rW).2
  have hM : (mStat s.M s).isExc = false := ((RunStatus.afterRetire_eq_running_iff _ _).1 (afterM_run s ▸ rM)).2
  exact ⟨hm, hl, hr, hpath, by simp [excMW, hW, hM], rW, rM, rE, rD⟩

section issued

variable {s : State} (h : Issued s)
include h

theorem Issued.settle_eq (hrun : s.run = .running) : settle s = afterD s := by
  rw [settle_eq_atStop_afterD h.mispredict_false hrun h.afterW_running h.afterM_running h.afterE_running,
    State.atStop_of_running h.afterD_running]

/-- Fetch reads at the pc the instructions in flight leave (R102). -/
theorem Issued.afterD_pc : (afterD s).pc = fetchPC s := by
  obtain ⟨hD, hE, hM⟩ := (retInFlight_eq_false_iff s).1 h.retInFlight_false
  have hjE := (mispredict_eq_false_iff s).1 h.mispredict_false
  have hjD := (wrongPath_eq_false_iff s (afterE s).readReg).1 h.wrongPath_false
  calc (afterD s).pc = (afterE s).pc := finishE_pc hD hjD
    _ = (afterM s).pc := finishE_pc hE hjE
    _ = fetchPC s := afterM_pc hM

theorem Issued.cycle_M : (cycle s).M = mIn s.E s.cc := by simp [modeM, h.excMW_false]

theorem Issued.cycle_E (hs : slotsLegal s) : (cycle s).E = eInWith (afterE s).readReg s.D := by
  simp [modeE, h.mispredict_false, h.loaduse_false, eIn_eq_eInWith_afterE h.loaduse_false hs]

theorem Issued.cycle_D : (cycle s).D = dIn s := by
  simp [modeD, h.mispredict_false, h.loaduse_false, h.retInFlight_false]

theorem Issued.cycle_F : (cycle s).F = fIn s := by simp [modeF, h.loaduse_false, h.retInFlight_false]

theorem Issued.afterW_cycle : afterW (cycle s) = ((afterM s).setCC (eCC s.E s.cc)).setPC (cycle s).pc := by
  obtain ⟨-, -, hM⟩ := (retInFlight_eq_false_iff s).1 h.retInFlight_false
  rw [Machine.afterW_cycle hM, cycle_cc_of_noExc h.excMW_false]

theorem Issued.afterM_cycle : afterM (cycle s) = (afterE s).setPC (cycle s).pc := by
  obtain ⟨-, hE, -⟩ := (retInFlight_eq_false_iff s).1 h.retInFlight_false
  have hj := (mispredict_eq_false_iff s).1 h.mispredict_false
  rw [afterM, h.afterW_cycle, h.cycle_M, finishM_setPC hE hj]
  rfl

theorem Issued.afterE_cycle (hs : slotsLegal s) : afterE (cycle s) = (afterD s).setPC (cycle s).pc := by
  obtain ⟨hD, -, -⟩ := (retInFlight_eq_false_iff s).1 h.retInFlight_false
  have hj := (wrongPath_eq_false_iff s (afterE s).readReg).1 h.wrongPath_false
  rw [afterE, h.afterM_cycle, h.cycle_E hs, finishE_setPC hD hj]
  rfl

theorem Issued.mispredict_cycle (hs : slotsLegal s) : mispredict (cycle s) = false := by
  rw [mispredict_eq_false_iff, h.cycle_E hs, cycle_cc_of_noExc h.excMW_false]
  exact (wrongPath_eq_false_iff s _).1 h.wrongPath_false

/-- An issuing cycle completes, on the architectural state with the predicted address for its pc, the slot Fetch
delivers. -/
theorem Issued.settle_cycle (hs : slotsLegal s) (hrun : s.run = .running) :
    settle (cycle s) = (finishD (dIn s) ((settle s).setPC (predictPC (dIn s) (fetchPC s)))).atStop := by
  have hW : (afterW (cycle s)).run = .running := by rw [h.afterW_cycle]; exact h.afterM_running
  have hM : (afterM (cycle s)).run = .running := by rw [h.afterM_cycle]; exact h.afterE_running
  have hE : (afterE (cycle s)).run = .running := by rw [h.afterE_cycle hs]; exact h.afterD_running
  have hpc : (cycle s).pc = predictPC (dIn s) (fetchPC s) := congrArg LatchF.predPC h.cycle_F
  rw [settle_eq_atStop_afterD (h.mispredict_cycle hs) h.afterW_running hW hM hE, afterD, h.cycle_D,
    h.afterE_cycle hs, hpc, h.settle_eq hrun]

end issued

/-- Settles O47: an issuing cycle completes the fetched slot on the architectural state (`Issued.settle_cycle`), and
that completion is the sequential effect (`exec_eq_finishD`). The hazard conditions that `issues` excludes suffice:
`flowLegal` is not used. -/
theorem stepRealisesExec : Obligations.StepRealisesExec := by
  intro s i hrun hslots _ hat hissues
  have h := issued_of_issues hissues
  have hpc : (settle s).pc = fetchPC s := by rw [h.settle_eq hrun, h.afterD_pc]
  have hslot : dIn s = instrSlot i (fetchPC s) := fetchSlot_of_instrAt hat
  refine ⟨hpc, cycle s, _, (step_eq_next_iff _ _).2 ⟨hrun, rfl⟩, exec_eq_finishD i (settle s), ?_⟩
  rw [h.settle_cycle hslots hrun, hslot, hpc]

end Sys2Proof.Machine
end

section
/-! PROOFS. The memory along a step: a data write keeps it in canonical form and below the capacity (10_state.md R38,
20_memory.md R47, R55). -/

namespace Sys2Proof.Machine

/-- Every entry a word write leaves is an old one or one of the word's eight bytes (R52). -/
theorem Memory.mem_writeWord {m : Memory} {a : Nat} {v : Word} {c : Host.Cell} (h : c ∈ Memory.writeWord m a v) :
    c ∈ m ∨ (a ≤ c.1 ∧ c.1 < a + 8) :=
  Memory.mem_writeBytes h

/-- A data write keeps the memory legal: a valid one lies below the capacity, an invalid one writes nothing (R55). -/
theorem memoryLegal_memWrite {s : State} (h : memoryLegal s) (a v : Word) :
    memoryLegal { s with mem := (s.memWrite a v).1 } := by
  obtain ⟨hwf, hbound⟩ := h
  rcases s.memWrite_cases a v with ⟨hvalid, e⟩ | ⟨-, e⟩
  · rw [e]
    refine ⟨Memory.wf_writeWord hwf _ _, fun c hc => ?_⟩
    rcases Memory.mem_writeWord hc with hold | ⟨-, hnew⟩
    · exact hbound c hold
    · exact hnew.trans_le hvalid
  · rw [e]
    exact ⟨hwf, hbound⟩

/-- An instruction that is no store leaves the memory as it is (R145, R149). -/
theorem mMem_of_not_isStore {m : LatchM} (h : isStore m.icode = false) (s : State) : mMem m s = s.mem := by
  simp [mMem, h]

/-- The Memory stage keeps the memory legal (R149). -/
theorem memoryLegal_mMem {s : State} (h : memoryLegal s) (m : LatchM) : memoryLegal { s with mem := mMem m s } := by
  cases hst : isStore m.icode with
  | true =>
    rw [mMem, if_pos hst]
    exact memoryLegal_memWrite h _ _
  | false =>
    rw [mMem_of_not_isStore hst]
    exact h

/-- A cycle keeps the memory legal: only its Memory stage writes memory (R94). -/
theorem memoryLegal_cycle {s : State} (h : memoryLegal s) : memoryLegal (cycle s) := memoryLegal_mMem h s.M

/-- Settles O42: a step is a cycle, which keeps the memory legal (`memoryLegal_cycle`) and the capacity. -/
theorem stepKeepsMemoryLegal : Obligations.StepKeepsMemoryLegal := by
  intro s t hstep ⟨hcapacity, hmemory⟩
  obtain ⟨-, rfl⟩ := (step_eq_next_iff s t).1 hstep
  exact ⟨⟨hcapacity, memoryLegal_cycle hmemory⟩, cycle_memCapacity s⟩

end Sys2Proof.Machine
end

section
/-! PROOFS. What a cycle leaves as it was, piece by piece of the state (10_state.md R29, R34, R41, 40_pipeline_cycle.md
R96, 43_execute.md R136, 44_memory_stage.md R154). -/

namespace Sys2Proof.Machine

/-! ### The frame of a cycle -/

/-- A register that W does not name is as before (R29, R156). -/
theorem cycle_readReg_of_ne {s : State} {id : RegId} (hE : id ≠ s.W.dstE) (hM : id ≠ s.W.dstM) :
    (cycle s).readReg id = s.readReg id := by
  rw [State.readReg, cycle_regs, read_writebackRegs, if_neg fun h => hM h.1.symm, if_neg fun h => hE h.1.symm]
  rfl

/-- When the condition codes are not written (R136). -/
theorem setCC_eq_false_iff (s : State) :
    setCC s = false ↔ s.E.icode ≠ .IOPQ ∨ (mStat s.M s).isExc = true ∨ s.W.stat.isExc = true := by
  simp [setCC, setsCC, imp_iff_not_or, or_assoc]

/-- The condition codes are as before unless `set_cc` holds (R34, R137). -/
theorem cycle_cc_of_setCC_false {s : State} (h : setCC s = false) : (cycle s).cc = s.cc := by
  simp [h]

/-- Settles O32: a step is a cycle, and each clause is the frame of one stage. -/
theorem stepFrame : Obligations.StepFrame := by
  intro s t hstep
  obtain ⟨hrunning, rfl⟩ := (step_eq_next_iff s t).1 hstep
  refine ⟨?registers, ?conditionCodes, ?noStore, ?otherBytes, ?run, cycle_memCapacity s⟩
  case registers => exact fun _ => cycle_readReg_of_ne
  case conditionCodes => exact fun h => cycle_cc_of_setCC_false ((setCC_eq_false_iff s).2 h)
  case noStore =>
    intro hst x
    rw [cycle_mem, mMem_of_not_isStore hst]
  case otherBytes =>
    intro hwf x hx
    exact (mMem_frame hwf).2 x fun hstore => hx hstore.2
  case run => exact fun h => (RunStatus.afterRetire_eq_running_iff s.run s.W.stat).2 ⟨hrunning, h⟩

/-! ### The source ids of latch E (R41) -/

/-- A latch that does not stall commits nothing of its old output (R90). -/
theorem commit_congr_output {α : Type} {mode : Mode} (h : mode ≠ .STALL) (input output output' bubble : α) :
    commit mode input output bubble = commit mode input output' bubble := by
  cases mode with
  | NORMAL => rfl
  | STALL => exact absurd rfl h
  | BUBBLE => rfl

/-- Latch E never stalls (R165). -/
theorem modeE_ne_STALL (s : State) : modeE s ≠ .STALL := by
  unfold modeE
  split <;> decide

/-- A cycle does not see the source ids in E: no stage reads them, and E never stalls, so they are not kept either
(R41, R165). -/
theorem cycle_sources (s : State) (x y : RegId) :
    cycle { s with E := { s.E with srcA := x, srcB := y } } = cycle s :=
  calc cycle { s with E := { s.E with srcA := x, srcB := y } }
    _ = { cycle s with E := commit (modeE s) (eIn s) { s.E with srcA := x, srcB := y } LatchE.bubble } := rfl
    _ = cycle s := by rw [commit_congr_output (modeE_ne_STALL s) _ _ s.E]; rfl

/-- Settles O33: Decode latches the ids it computes, and a cycle sees none of those in E (`cycle_sources`). -/
theorem sourceIdsUnread : Obligations.SourceIdsUnread := by
  refine ⟨fun _ => ⟨rfl, rfl⟩, fun s x y => ?_⟩
  rw [step, step, cycle_sources]

end Sys2Proof.Machine
end

section
/-! PROOFS. Reads of the register file, and the state after a boot (10_state.md R28, R46, 70_reset_and_hazards.md
R227 to R233). -/

namespace Sys2Proof.Machine

/-- Settles O6: the sentinel by its two lemmas, every other id by `RegFile.read_write`. -/
theorem registerReadWrite : Obligations.RegisterReadWrite := by
  refine ⟨fun rf v => ⟨RegFile.read_RNONE rf, RegFile.write_RNONE rf v⟩, fun rf i j v hi => ?_⟩
  rw [RegFile.read_write]
  simp only [hi, ne_eq, not_false_eq_true, and_true, eq_comm]

/-- Every register of a file of zeros reads 0, and so does the sentinel (R28, R229). -/
theorem RegFile.read_replicate_zero (id : RegId) : RegFile.read (Vector.replicate 15 0) id = 0 := by
  unfold RegFile.read
  split
  · exact Vector.getElem_replicate _
  · rfl

/-- An address no entry lists reads as 0 (R232). -/
theorem Memory.read_of_not_listed {m : Memory} {a : Nat} (h : ∀ c ∈ m, c.1 ≠ a) : Memory.read m a = 0 := by
  induction m with
  | nil => rfl
  | cons c rest ih =>
    obtain ⟨hc, hrest⟩ := List.forall_mem_cons.1 h
    rw [Memory.read, if_neg hc, ih hrest]

/-- The first fetch after a boot is at address 0: nothing in M or W redirects it (R102, R228). -/
theorem fetchPC_boot (capacity : Nat) (image : Memory) : fetchPC (State.boot capacity image) = 0 := rfl

/-- Settles O54: the registers and the unlisted bytes by their lemmas, every other piece as `State.boot` sets it. -/
theorem resetState : Obligations.ResetState := by
  refine ⟨fun capacity image => ?_, rfl⟩
  refine ⟨?registers, rfl, rfl, ?unlisted, rfl, rfl, fetchPC_boot capacity image, rfl, rfl, rfl, rfl⟩
  case registers => exact RegFile.read_replicate_zero
  case unlisted => exact fun _ => Memory.read_of_not_listed

end Sys2Proof.Machine
end

section
/-! PROOFS. An invalid data access, alone and in the Memory stage (20_memory.md R55, 44_memory_stage.md R148 to R151). -/

namespace Sys2Proof.Machine

/-- An invalid data read reads no byte and yields 0 with an error (R55, R148). -/
theorem State.memRead_of_invalid {s : State} {a : Word} (h : s.memCapacity < a.toNat + 8) :
    s.memRead a = (0, true) := by
  rw [State.memRead_eq, if_neg (Nat.not_le.2 h)]

/-- An invalid data write writes no byte and reports an error (R55, R149). -/
theorem State.memWrite_of_invalid {s : State} {a : Word} (h : s.memCapacity < a.toNat + 8) (v : Word) :
    s.memWrite a v = (s.mem, true) := by
  rw [State.memWrite_eq, if_neg (Nat.not_le.2 h)]

section invalid

variable {m : LatchM} {s : State}

/-- At an invalid address the stage has an access error exactly for a load or a store (R150). -/
theorem dmemError_of_invalid (h : s.memCapacity < (memAddr m).toNat + 8) :
    dmemError m s = (isLoad m.icode || isStore m.icode) := by
  simp [dmemError, State.memRead_of_invalid h, State.memWrite_of_invalid h]

theorem mMem_of_invalid (h : s.memCapacity < (memAddr m).toNat + 8) : mMem m s = s.mem := by
  rw [mMem, State.memWrite_of_invalid h, ite_self]

theorem mValM_of_invalid (h : s.memCapacity < (memAddr m).toNat + 8) : mValM m s = 0 := by
  rw [mValM, State.memRead_of_invalid h, ite_self]

end invalid

/-- Settles O8: what an access is at an invalid address, then what the Memory stage makes of it. -/
theorem invalidAccess : Obligations.InvalidAccess := by
  refine ⟨State.validAccess_iff, ?access, ?stage⟩
  case access => exact fun s a v h => ⟨State.memRead_of_invalid h, State.memWrite_of_invalid h v⟩
  case stage =>
    intro m s haccess h
    have herror : dmemError m s = true := by rw [dmemError_of_invalid h, Bool.or_eq_true]; exact haccess
    exact ⟨if_pos herror, mMem_of_invalid h, mValM_of_invalid h⟩

end Sys2Proof.Machine
end

section
/-! PROOFS. The memory along an instruction's sequential effect (00_scope.md R21, 20_memory.md R47, R55; log entry 11). -/

namespace Sys2Proof.Machine

@[simp] theorem finishD_memCapacity (d : LatchD) (a : State) : (finishD d a).memCapacity = a.memCapacity := rfl

/-- Completing an instruction keeps the memory legal: its Memory stage alone writes memory (R149). -/
theorem memoryLegal_finishD {a : State} (h : memoryLegal a) (d : LatchD) : memoryLegal (finishD d a) := by
  rw [finishD_eq]
  exact memoryLegal_mMem h (mIn (eInWith a.readReg d) a.cc)

/-- Settles O24: an instruction's sequential effect is its completion from D (`exec_eq_finishD`), whose one data access
keeps the model's canonical form of memory (log entry 11). -/
theorem execKeepsMemoryLegal : Obligations.ExecKeepsMemoryLegal := by
  intro i s t hexec hmemory
  rw [exec_eq_finishD] at hexec
  cases hexec
  exact ⟨memoryLegal_finishD (a := s.setPC _) hmemory _, finishD_memCapacity _ _⟩

end Sys2Proof.Machine
end

section
/-! PROOFS. The decoder and the encoder are inverse to each other, the rows of the opcode map, and the length of an
instruction (30_encoding.md R67 to R85). -/

namespace Sys2Proof

/-- Settles O1: `decode_encode`, one case per row of the opcode map. -/
theorem decodeEncode : Obligations.DecodeEncode := decode_encode

/-! ### The decoder answers encodings only (R81, R85) -/

/-- However its operands are filled in, the template's instruction is encoded as `b0` and the operand bytes of the
template's format (R72 to R75). -/
def Template.EncodedFrom (b0 : Byte) : Template → Prop
  | .formatN i => encode i = [b0]
  | .formatR f => ∀ rA rB, encode (f rA rB) = [b0, byteOf rA rB]
  | .formatRC f => ∀ rA rB v, encode (f rA rB v) = b0 :: byteOf rA rB :: bytesOfWord v
  | .formatC f => ∀ v, encode (f v) = b0 :: bytesOfWord v

/-- Each row of the opcode map stands under the first byte of its own instruction (R81). -/
theorem encodedFrom_of_opcodeMap {b0 : Byte} {t : Template} (h : opcodeMap b0 = some t) : t.EncodedFrom b0 := by
  have hb0 : b0 = BitVec.ofNat 8 b0.toNat := by simp
  unfold opcodeMap at h
  split at h <;> cases h
  all_goals
    next hrow =>
    rw [hrow] at hb0
    subst hb0
    simp [Template.EncodedFrom]

/-- What an answer of `decodeOperands` says of the bytes, format by format: they are the operand bytes of the
instruction it fills in (R72 to R75). -/
theorem eq_encode_of_decodeOperands {b0 : Byte} {t : Template} (ht : t.EncodedFrom b0) {bs rest : List Byte} {i : Instr}
    (h : decodeOperands t bs = .ok i rest) : b0 :: bs = encode i ++ rest := by
  cases t with
  | formatN j =>
    cases h
    simp [show encode _ = _ from ht]
  | formatR f =>
    cases bs with
    | nil => cases h
    | cons b1 tail =>
      cases h
      simp [ht (hiNibble b1) (loNibble b1)]
  | formatRC f =>
    cases bs with
    | nil => cases h
    | cons b1 tail =>
      rw [decodeOperands] at h
      split at h <;> cases h
      next v hv => simp [ht (hiNibble b1) (loNibble b1) v, takeWord_eq_some hv]
  | formatC f =>
    rw [decodeOperands] at h
    split at h <;> cases h
    next v hv => simp [ht v, takeWord_eq_some hv]

/-- Settles O2: the first byte selects a row whose instruction begins with that byte, and its operands are read back
byte for byte. -/
theorem decodeReadsOnlyEncodings : Obligations.DecodeReadsOnlyEncodings := by
  intro bs rest i h
  cases bs with
  | nil => cases h
  | cons b0 operands =>
    rw [decode] at h
    split at h
    · cases h
    · next t ht => exact eq_encode_of_decodeOperands (encodedFrom_of_opcodeMap ht) h

/-! ### The opcode map (R81, R82) -/

/-- The first bytes that select no instruction: all but the 27 of R81. -/
theorem opcodeMap_eq_none_iff (b : Byte) :
    opcodeMap b = none ↔
      b ∉ ([0x00, 0x10, 0x20, 0x21, 0x22, 0x23, 0x24, 0x25, 0x26, 0x30, 0x40, 0x50, 0x60, 0x61, 0x62, 0x63, 0x70,
        0x71, 0x72, 0x73, 0x74, 0x75, 0x76, 0x80, 0x90, 0xA0, 0xB0] : List Byte) := by
  revert b; decide

section rows

variable {b0 : Byte} (rA rB : RegId) (v : Word) (rest : List Byte)

/-! What the decoder answers on a first byte of each format (R72 to R75). -/

theorem decode_formatN {i : Instr} (h : opcodeMap b0 = some (.formatN i)) : decode (b0 :: rest) = .ok i rest := by
  simp [decode, h, decodeOperands]

theorem decode_formatR {f : RegId → RegId → Instr} (h : opcodeMap b0 = some (.formatR f)) :
    decode (b0 :: byteOf rA rB :: rest) = .ok (f rA rB) rest := by
  simp [decode, h, decodeOperands]

theorem decode_formatRC {f : RegId → RegId → Word → Instr} (h : opcodeMap b0 = some (.formatRC f)) :
    decode (b0 :: byteOf rA rB :: (bytesOfWord v ++ rest)) = .ok (f rA rB v) rest := by
  simp [decode, h, decodeOperands]

theorem decode_formatC {f : Word → Instr} (h : opcodeMap b0 = some (.formatC f)) :
    decode (b0 :: (bytesOfWord v ++ rest)) = .ok (f v) rest := by
  simp [decode, h, decodeOperands]

end rows

/-- Settles O3: each row by its format, and the invalid first bytes by `opcodeMap_eq_none_iff`. -/
theorem opcodeMapRows : Obligations.OpcodeMapRows := by
  refine ⟨fun rest => ?formatN, fun rA rB rest => ?formatR, fun rA rB v rest => ?formatRC, fun v rest => ?formatC,
    fun b rest => ?invalid⟩
  case formatN => and_intros <;> exact decode_formatN rest rfl
  case formatR => and_intros <;> exact decode_formatR rA rB rest rfl
  case formatRC => and_intros <;> exact decode_formatRC rA rB v rest rfl
  case formatC => and_intros <;> exact decode_formatC v rest rfl
  case invalid => rw [decode_eq_invalidFirstByte_iff, and_iff_left rfl, opcodeMap_eq_none_iff]

/-! ### Lengths (R76) -/

/-- The four lengths: each of the two optional parts of an encoding is there or not (R71, R76). -/
theorem lengthOfIcode_mem (ic : Icode) : lengthOfIcode ic ∈ [1, 2, 9, 10] := by
  rw [lengthOfIcode]
  cases needRegids ic <;> cases needValC ic <;> decide

/-- Settles O4: the encoding is as long as R76 says (`length_encode`), and Fetch adds that length, or 1 where the first
byte is invalid, to the address (R109). -/
theorem instructionLength : Obligations.InstructionLength := by
  refine ⟨fun i pc => ?valid, fun s pc b h => ?invalid⟩
  case valid =>
    rw [length_encode]
    exact ⟨rfl, lengthOfIcode_mem i.icode, rfl⟩
  case invalid =>
    rw [Machine.fetchSlot, h]
    rfl

/-! ### Byte strings of the spec (R80, R177, R181, R184, R190, R200) -/

theorem decode_eq_ok_of_eq_encode {bs : List Byte} {i : Instr} (h : bs = encode i) : decode bs = .ok i [] := by
  simpa [h] using decode_encode i []

/-- Settles O5: each string is the encoding of its instruction. -/
theorem specWordsDecode : Obligations.SpecWordsDecode := by
  and_intros <;> exact decode_eq_ok_of_eq_encode (by decide)

end Sys2Proof
end

section
/-! PROOFS. An exceptional status in M or W keeps every younger instruction from having an effect (40_pipeline_cycle.md
R96, 43_execute.md R136, 45_writeback_control.md R162, R166). -/

namespace Sys2Proof.Machine

/-- Behind an exceptional status in M or W no condition code is written (R136). -/
theorem cycle_cc_of_excMW {s : State} (h : excMW s = true) : (cycle s).cc = s.cc :=
  cycle_cc_of_setCC_false ((setCC_eq_false_iff s).2 (.inr (by simpa [excMW] using h)))

/-- Behind an exceptional status in M or W nothing enters M (R166). -/
theorem cycle_M_of_excMW {s : State} (h : excMW s = true) : (cycle s).M = LatchM.bubble := by
  simp [modeM, h]

theorem excMW_of_excW {s : State} (h : s.W.stat.isExc = true) : excMW s = true := by
  simp [excMW, h]

/-- In the stopping cycle M is empty, so no byte of memory changes (R96, R166). -/
theorem cycle_mem_of_excW {s : State} (hf : flowLegal s) (h : s.W.stat.isExc = true) : (cycle s).mem = s.mem := by
  obtain ⟨-, -, -, -, hM⟩ := hf
  rw [cycle_mem, hM h, mMem_bubble]

theorem RunStatus.afterRetire_of_exc {st : Stat} {e : Exc} (h : st.exc? = some e) (r : RunStatus) :
    r.afterRetire st = .stopped e := by
  simp [RunStatus.afterRetire, h]

/-- Settles O40: the condition codes and M by the control signals of an exceptional status in M or W, the memory by the
bubble that `flowLegal` finds in M. -/
theorem exceptionContainment : Obligations.ExceptionContainment := by
  refine ⟨fun s t hstep hexc => ?inMW, fun s t e hf hstep hexc => ?inW⟩
  case inMW =>
    obtain ⟨-, rfl⟩ := (step_eq_next_iff s t).1 hstep
    exact ⟨cycle_cc_of_excMW hexc, cycle_M_of_excMW hexc⟩
  case inW =>
    obtain ⟨-, rfl⟩ := (step_eq_next_iff s t).1 hstep
    have hW : s.W.stat.isExc = true := Stat.isExc_iff.2 ⟨e, hexc⟩
    exact ⟨RunStatus.afterRetire_of_exc hexc s.run, rfl, cycle_cc_of_excMW (excMW_of_excW hW),
      fun x => by rw [cycle_mem_of_excW hf hW]⟩

end Sys2Proof.Machine
end

section
/-! PROOFS. An issuing step whose fetch no store in flight changes is a step of the straight-line machine, failed
fetches too (40_pipeline_cycle.md R100, 46_moves.md R175, 70_reset_and_hazards.md R240). -/

namespace Sys2Proof.Machine

/-- After a failed fetch F keeps its address (R110). -/
theorem predictPC_errorSlot {st : Stat} (h : st.isExc = true) (pc : Word) (length : Nat) :
    predictPC (errorSlot st pc length) pc = pc := by
  simp [predictPC, errorSlot, h]

/-- A failed fetch, completed at its own address, only stops the run (R108, R110, R175). -/
theorem finishD_failedFetch {st : Stat} (h : st.isExc = true) (length : Nat) (a : State) :
    finishD (errorSlot st a.pc length) (a.setPC (predictPC (errorSlot st a.pc length) a.pc)) = a.retire st := by
  rw [predictPC_errorSlot h, finishD_errorSlot]
  rfl

/-- A step of the straight-line machine completes the slot Fetch delivers, the predicted address standing for the pc. -/
theorem straightLineStep_eq_finishD {a : State} (hrun : a.run = .running) :
    straightLineStep a =
      .next (finishD (fetchSlot a a.pc) (a.setPC (predictPC (fetchSlot a a.pc) a.pc))) := by
  unfold straightLineStep fetchSlot
  rw [hrun]
  cases fetchInstr a a.pc with
  | ok i rest => exact exec_eq_finishD i a
  | noFirstByte => exact congrArg _ (finishD_failedFetch rfl 1 a).symm
  | invalidFirstByte b => exact congrArg _ (finishD_failedFetch rfl 1 a).symm
  | tooShort length => exact congrArg _ (finishD_failedFetch rfl length a).symm

/-- Settles O48: an issuing cycle completes the fetched slot on the architectural state (`Issued.settle_cycle`), a fresh
fetch is the straight-line machine's own, and its step is that completion (`straightLineStep_eq_finishD`). As for O47,
`flowLegal` is not used. -/
theorem stepRefinesStraightLine : Obligations.StepRefinesStraightLine := by
  intro s hrun hslots _ hissues hfresh
  have h := issued_of_issues hissues
  have hpc : (settle s).pc = fetchPC s := by rw [h.settle_eq hrun, h.afterD_pc]
  have hslot : fetchSlot (settle s) (settle s).pc = dIn s := by rw [hpc]; exact hfresh
  refine ⟨cycle s, _, (step_eq_next_iff _ _).2 ⟨hrun, rfl⟩, straightLineStep_eq_finishD hissues.2.2, ?_⟩
  rw [h.settle_cycle hslots hrun, hslot, hpc]

end Sys2Proof.Machine
end

section
/-! PROOFS. A step that does not issue keeps the architectural state: each latch's instruction moves one stage on, and
nothing enters behind them (40_pipeline_cycle.md R94, R97, R100, 45_writeback_control.md R163 to R173). -/

namespace Sys2Proof.Machine

/-! ### States that agree but for the pc -/

/-- `a` is `b` with some other pc. A completed stage overwrites the pc or hands it on, and touches it in no other way. -/
def AgreeOffPC (a b : State) : Prop := a = b.setPC a.pc

namespace AgreeOffPC

variable {a b : State}

theorem run_eq (h : AgreeOffPC a b) : a.run = b.run := by
  rw [h]
  rfl

theorem cc_eq (h : AgreeOffPC a b) : a.cc = b.cc := by
  rw [h]
  rfl

theorem eq_of_pc_eq (h : AgreeOffPC a b) (hpc : a.pc = b.pc) : a = b := by
  rw [h, hpc]
  rfl

/-- A stopped state has no pc, so there is nothing left to differ in (R97). -/
theorem atStop_eq (h : AgreeOffPC a b) (hb : b.run ≠ .running) : a.atStop = b.atStop := by
  cases hrun : b.run with
  | running => exact absurd hrun hb
  | stopped e =>
    rw [State.atStop_of_stopped (h.run_eq.trans hrun), State.atStop_of_stopped hrun, h]
    rfl

theorem setCC (h : AgreeOffPC a b) (c : CC) : AgreeOffPC (a.setCC c) (b.setCC c) :=
  congrArg (State.setCC · c) h

theorem finishM (h : AgreeOffPC a b) (m : LatchM) : AgreeOffPC (finishM m a) (finishM m b) := by
  rw [h, State.setPC, finishM_withF]
  rfl

/-- A ret and a mispredicted jump overwrite the pc they find (R102). -/
theorem finishM_eq (h : AgreeOffPC a b) {m : LatchM} (hm : m.icode = .IRET ∨ (m.icode = .IJXX ∧ m.Cnd = false)) :
    Machine.finishM m a = Machine.finishM m b := by
  have hb := finishM_withF m b b.F
  rw [h, State.setPC, finishM_withF]
  rcases hm with hret | ⟨hj, hcnd⟩
  · simp only [hret, if_true] at hb ⊢
    exact hb.symm
  · simp only [hj, hcnd, and_self, if_true, reduceCtorEq, if_false] at hb ⊢
    exact hb.symm

theorem finishE (h : AgreeOffPC a b) (e : LatchE) : AgreeOffPC (finishE e a) (finishE e b) := by
  rw [Machine.finishE, Machine.finishE, ← h.cc_eq]
  exact (h.setCC (eCC e a.cc)).finishM (mIn e a.cc)

/-- The same of a ret and of a mispredicted jump in E. -/
theorem finishE_eq (h : AgreeOffPC a b) {e : LatchE}
    (he : e.icode = .IRET ∨ (e.icode = .IJXX ∧ eCnd e a.cc = false)) : Machine.finishE e a = Machine.finishE e b := by
  rw [Machine.finishE, Machine.finishE, ← h.cc_eq]
  exact (h.setCC (eCC e a.cc)).finishM_eq (m := mIn e a.cc) he

end AgreeOffPC

/-! ### `settle`, by the stage whose instruction is the last to complete -/

theorem State.andThen_of_not_running {a : State} (h : a.run ≠ .running) (f : State → State) : a.andThen f = a := by
  cases hrun : a.run with
  | running => exact absurd hrun h
  | stopped e => exact State.andThen_of_stopped hrun f

/-- A stopped state is its own architectural state, its pc and latches apart (R97). -/
theorem settle_of_stopped {s : State} {e : Exc} (h : s.run = .stopped e) : settle s = s.drained.setPC 0 := by
  have hd : s.drained.run = .stopped e := h
  simp only [settle, State.andThen_of_stopped hd, ite_self, State.atStop_of_stopped hd]

section settle

variable {s : State} (hs : s.run = .running)
include hs

theorem andThen_finishW : s.drained.andThen (finishW s.W) = afterW s := State.andThen_of_running (a := s.drained) hs _

/-- The instruction in W stops the run. -/
theorem settle_eq_atStop_afterW (hW : (afterW s).run ≠ .running) : settle s = (afterW s).atStop := by
  simp only [settle, andThen_finishW hs, State.andThen_of_not_running hW, ite_self]

/-- The instruction in M stops the run. -/
theorem settle_eq_atStop_afterM (hW : (afterW s).run = .running) (hM : (afterM s).run ≠ .running) :
    settle s = (afterM s).atStop := by
  have eM : (afterW s).andThen (finishM s.M) = afterM s := State.andThen_of_running hW _
  simp only [settle, andThen_finishW hs, eM, State.andThen_of_not_running hM, ite_self]

/-- The instruction in E stops the run or is a mispredicted jump, or there is none in D. -/
theorem settle_eq_atStop_afterE (hW : (afterW s).run = .running) (hM : (afterM s).run = .running)
    (hE : (afterE s).run ≠ .running ∨ mispredict s = true ∨ s.D = LatchD.bubble) :
    settle s = (afterE s).atStop := by
  have eM : (afterW s).andThen (finishM s.M) = afterM s := State.andThen_of_running hW _
  have eE : (afterM s).andThen (finishE s.E) = afterE s := State.andThen_of_running hM _
  simp only [settle, andThen_finishW hs, eM, eE]
  rcases hE with hstop | hmis | hD
  · rw [State.andThen_of_not_running hstop, ite_self]
  · rw [if_pos hmis]
  · have eD : (afterE s).andThen (finishD s.D) = afterE s :=
      State.andThen_property (P := (· = afterE s)) rfl (by rw [hD, finishD_bubble])
    rw [eD, ite_self]

end settle

/-! ### What the hazard unit squashes (R164, R165) -/

theorem cycle_D_of_ret {s : State} (hret : retInFlight s = true) (hl : loaduse s = false) :
    (cycle s).D = LatchD.bubble := by
  simp [modeD, hret, hl]

theorem cycle_D_of_mispredict {s : State} (h : mispredict s = true) : (cycle s).D = LatchD.bubble := by
  simp [modeD, h]

theorem cycle_E_of_mispredict {s : State} (h : mispredict s = true) : (cycle s).E = LatchE.bubble := by
  simp [modeE, h]

/-! ### What a cycle makes of each stage's result -/

/-- M's instruction has completed, its register writes to come, and beside it E's has set the condition codes. -/
theorem agreeOffPC_afterW_cycle (s : State) : AgreeOffPC (afterW (cycle s)) ((afterM s).setCC (cycle s).cc) := by
  rw [afterM_eq]
  rfl

theorem afterW_cycle_run (s : State) : (afterW (cycle s)).run = (afterM s).run := (agreeOffPC_afterW_cycle s).run_eq

/-- A bubble leaves the state as it is, to `afterE` as to `finishE`. -/
theorem afterE_of_E_bubble {s : State} (h : s.E = LatchE.bubble) : afterE s = afterM s := by
  rw [afterE, h, finishE_bubble]

theorem mispredict_of_E_bubble {s : State} (h : s.E = LatchE.bubble) : mispredict s = false := by
  rw [mispredict, h]
  rfl

/-- A ret in M leaves the popped address, before its cycle and after it (R102). -/
theorem afterW_cycle_pc_of_ret {s : State} (h : s.M.icode = .IRET) : (afterW (cycle s)).pc = (afterM s).pc := by
  have h' : (wIn s.M s).icode = .IRET := h
  simp only [afterM_eq, afterW, finishW, cycle_W, State.pc, State.retire_F, h', if_true]

/-- An exceptional instruction in W stops the run, and its stopping cycle leaves the architectural state (R96). -/
theorem settle_cycle_of_excW {s : State} (hs : s.run = .running) (hf : flowLegal s) {e : Exc}
    (h : s.W.stat.exc? = some e) : settle (cycle s) = settle s := by
  have hexc : s.W.stat.isExc = true := Stat.isExc_iff.2 ⟨e, h⟩
  have hstop : (cycle s).run = .stopped e := RunStatus.afterRetire_of_exc h s.run
  have hW : (afterW s).run = .stopped e := hstop
  rw [settle_of_stopped hstop, settle_eq_atStop_afterW hs (by simp [hW]), State.atStop_of_stopped hW]
  calc (cycle s).drained.setPC 0
    _ = { afterW s with cc := (cycle s).cc, mem := (cycle s).mem }.setPC 0 := rfl
    _ = (afterW s).setPC 0 := by rw [cycle_cc_of_excMW (excMW_of_excW hexc), cycle_mem_of_excW hf hexc]; rfl

/-- An exceptional instruction in M goes on to W, and behind it no condition code is written (R136, R166). -/
theorem settle_cycle_of_excM {s : State} (hs : s.run = .running) (hW : s.W.stat.isExc = false)
    (hM : (mStat s.M s).isExc = true) : settle (cycle s) = settle s := by
  have rW : (afterW s).run = .running := (RunStatus.afterRetire_eq_running_iff _ _).2 ⟨hs, hW⟩
  have rM : (afterM s).run ≠ .running := by
    rw [afterM_run, Ne, RunStatus.afterRetire_eq_running_iff, hM]
    simp
  have hexc : excMW s = true := by simp [excMW, hM]
  have hagree : AgreeOffPC (afterW (cycle s)) (afterM s) := by
    have h := agreeOffPC_afterW_cycle s
    rwa [cycle_cc_of_excMW hexc] at h
  have hcycle : (cycle s).run = .running := rW
  rw [settle_eq_atStop_afterW hcycle (by rwa [afterW_cycle_run]), settle_eq_atStop_afterM hs rW rM]
  exact hagree.atStop_eq rM

/-! ### A cycle with no exceptional status in M or W -/

section noExc

variable {s : State} (hexc : excMW s = false)
include hexc

theorem afterW_running_of_noExc (hs : s.run = .running) : (afterW s).run = .running := by
  have h : (mStat s.M s).isExc = false ∧ s.W.stat.isExc = false := by simpa [excMW] using hexc
  exact (RunStatus.afterRetire_eq_running_iff _ _).2 ⟨hs, h.2⟩

theorem afterM_running_of_noExc (hs : s.run = .running) : (afterM s).run = .running := by
  have h : (mStat s.M s).isExc = false ∧ s.W.stat.isExc = false := by simpa [excMW] using hexc
  rw [afterM_run]
  exact (RunStatus.afterRetire_eq_running_iff _ _).2 ⟨afterW_running_of_noExc hexc hs, h.1⟩

/-- The instruction in E enters M, and completes there on the state it would complete on from E (R166). -/
theorem afterM_cycle_of_noExc : afterM (cycle s) = finishM (mIn s.E s.cc) (afterW (cycle s)) := by
  have hM : (cycle s).M = mIn s.E s.cc := by simp [modeM, hexc]
  rw [afterM, hM]

theorem agreeOffPC_afterM_cycle : AgreeOffPC (afterM (cycle s)) (afterE s) := by
  rw [afterM_cycle_of_noExc hexc]
  have h := (agreeOffPC_afterW_cycle s).finishM (mIn s.E s.cc)
  rwa [cycle_cc_of_noExc hexc] at h

/-- If the instructions in W and M leave the same pc after the cycle as before, so does E's. -/
theorem afterM_cycle_of_pc_eq (hpc : (afterW (cycle s)).pc = (afterM s).pc) : afterM (cycle s) = afterE s := by
  rw [afterM_cycle_of_noExc hexc, (agreeOffPC_afterW_cycle s).eq_of_pc_eq hpc, cycle_cc_of_noExc hexc]
  rfl

/-- A ret or a mispredicted jump in E decides the pc alone. -/
theorem afterM_cycle_of_redirect (hE : s.E.icode = .IRET ∨ mispredict s = true) : afterM (cycle s) = afterE s := by
  have hE' : s.E.icode = .IRET ∨ (s.E.icode = .IJXX ∧ eCnd s.E s.cc = false) := by simpa [mispredict] using hE
  rw [afterM_cycle_of_noExc hexc, (agreeOffPC_afterW_cycle s).finishM_eq hE', cycle_cc_of_noExc hexc]
  rfl

/-- An exceptional instruction in E goes on to M. -/
theorem settle_cycle_of_stopE (hs : s.run = .running) (hE : (afterE s).run ≠ .running) :
    settle (cycle s) = settle s := by
  have rW := afterW_running_of_noExc hexc hs
  have rM := afterM_running_of_noExc hexc hs
  have hagree := agreeOffPC_afterM_cycle hexc
  have hcycle : (cycle s).run = .running := rW
  rw [settle_eq_atStop_afterM hcycle (by rwa [afterW_cycle_run]) (by rwa [hagree.run_eq]),
    settle_eq_atStop_afterE hs rW rM (.inl hE)]
  exact hagree.atStop_eq hE

/-- A mispredicted jump in E goes on to M, and the two behind it are squashed (R168). -/
theorem settle_cycle_of_mispredict (hs : s.run = .running) (hm : mispredict s = true)
    (rE : (afterE s).run = .running) : settle (cycle s) = settle s := by
  have rW := afterW_running_of_noExc hexc hs
  have rM := afterM_running_of_noExc hexc hs
  have hafter : afterM (cycle s) = afterE s := afterM_cycle_of_redirect hexc (.inr hm)
  rw [settle_eq_atStop_afterE (s := cycle s) rW (by rwa [afterW_cycle_run]) (by rwa [hafter])
      (.inr (.inr (cycle_D_of_mispredict hm))),
    settle_eq_atStop_afterE hs rW rM (.inr (.inl hm)), afterE_of_E_bubble (cycle_E_of_mispredict hm), hafter]

end noExc

/-! ### A load-use hazard (R160, R169) -/

/-- In a legal pipeline nothing older redirects the fetch beside an instruction in E. -/
theorem pc_of_E_occupied {s : State} (hf : flowLegal s) (hE : s.E ≠ LatchE.bubble) :
    s.M.icode ≠ .IRET ∧ fetchPC s = s.F.predPC := by
  obtain ⟨-, hM, hW, hj, -⟩ := hf
  have hret : s.M.icode ≠ .IRET := fun h => hE (hM h).1
  have hretW : s.W.icode ≠ .IRET := fun h => hE (hW h).2.1
  have hjump : ¬(s.M.icode = .IJXX ∧ s.M.Cnd = false) := fun h => hE (hj h.1 h.2).1
  exact ⟨hret, by rw [fetchPC, if_neg hjump, if_neg hretW]⟩

/-- The load goes on to M, the instruction in D waits, and so does the fetch. -/
theorem settle_cycle_of_loaduse {s : State} (hs : s.run = .running) (hf : flowLegal s) (hexc : excMW s = false)
    (hm : mispredict s = false) (hl : loaduse s = true) (rE : (afterE s).run = .running) :
    settle (cycle s) = settle s := by
  have rW := afterW_running_of_noExc hexc hs
  have rM := afterM_running_of_noExc hexc hs
  have hloaded : s.E ≠ LatchE.bubble := fun h => by simp [loaduse, h, LatchE.bubble] at hl
  obtain ⟨hret, hfetch⟩ := pc_of_E_occupied hf hloaded
  have hE : (cycle s).E = LatchE.bubble := by simp [modeE, hl]
  have hD : (cycle s).D = s.D := by simp [modeD, hm, hl]
  have hF : (cycle s).pc = s.F.predPC := by simp [State.pc, modeF, hl]
  have hpc : (afterW (cycle s)).pc = (afterM s).pc := by
    rw [afterW_cycle hret, State.setPC_pc, hF, afterM_pc hret, hfetch]
  have hafterE : afterE (cycle s) = afterE s := by
    rw [afterE_of_E_bubble hE, afterM_cycle_of_pc_eq hexc hpc]
  have hm' : mispredict (cycle s) = false := mispredict_of_E_bubble hE
  rw [settle_eq_atStop_afterD (s := cycle s) hm' rW (by rwa [afterW_cycle_run])
      (by rwa [(agreeOffPC_afterM_cycle hexc).run_eq]) (by rwa [hafterE]),
    settle_eq_atStop_afterD hm hs rW rM rE, afterD, hafterE, hD]
  rfl

/-! ### The instruction in D enters E, and none that counts enters D -/

/-- What lets the instruction in D enter E, every older one having completed or going on (R165). -/
structure Advancing (s : State) : Prop where
  running : s.run = .running
  slotsLegal : slotsLegal s
  excMW_false : excMW s = false
  mispredict_false : mispredict s = false
  loaduse_false : loaduse s = false
  afterE_running : (afterE s).run = .running

namespace Advancing

variable {s : State} (h : Advancing s)
include h

theorem cycle_E : (cycle s).E = eInWith (afterE s).readReg s.D := by
  simp [modeE, h.mispredict_false, h.loaduse_false, eIn_eq_eInWith_afterE h.loaduse_false h.slotsLegal]

/-- The instruction in D completes from E on the operands the older instructions leave (R126). -/
theorem afterE_cycle : afterE (cycle s) = finishE (eInWith (afterE s).readReg s.D) (afterM (cycle s)) := by
  rw [afterE, h.cycle_E]

/-- It leaves the same state but for the pc, unless what is older leaves another pc. -/
theorem agreeOffPC_afterE_cycle : AgreeOffPC (afterE (cycle s)) (afterD s) := by
  rw [h.afterE_cycle]
  exact (agreeOffPC_afterM_cycle h.excMW_false).finishE _

/-- If the completion ends in E after the cycle, and leaves there what it left in D before, the cycle keeps the
architectural state. -/
theorem settle_cycle (hafter : (afterE (cycle s)).atStop = (afterD s).atStop)
    (hend : (afterE (cycle s)).run ≠ .running ∨ mispredict (cycle s) = true ∨ (cycle s).D = LatchD.bubble) :
    settle (cycle s) = settle s := by
  have rW := afterW_running_of_noExc h.excMW_false h.running
  have rM := afterM_running_of_noExc h.excMW_false h.running
  have rE : (afterM (cycle s)).run = .running := by
    rw [(agreeOffPC_afterM_cycle h.excMW_false).run_eq, h.afterE_running]
  rw [settle_eq_atStop_afterE (s := cycle s) rW (by rwa [afterW_cycle_run]) rE hend,
    settle_eq_atStop_afterD h.mispredict_false h.running rW rM h.afterE_running, hafter]

/-- A ret in D, E or M decides the pc, whichever the fetch it holds would leave (R171). -/
theorem afterE_cycle_of_ret (hret : retInFlight s = true) : afterE (cycle s) = afterD s := by
  have hret' : s.D.icode = .IRET ∨ s.E.icode = .IRET ∨ s.M.icode = .IRET := by
    simpa [retInFlight, or_assoc] using hret
  rw [h.afterE_cycle]
  rcases hret' with hD | hE | hM
  · rw [(agreeOffPC_afterM_cycle h.excMW_false).finishE_eq (.inl hD)]
    rfl
  · rw [afterM_cycle_of_redirect h.excMW_false (.inl hE)]
    rfl
  · rw [afterM_cycle_of_pc_eq h.excMW_false (afterW_cycle_pc_of_ret hM)]
    rfl

/-- Behind a ret the fetch is held, and D stays empty (R163, R164). -/
theorem settle_cycle_of_ret (hret : retInFlight s = true) : settle (cycle s) = settle s :=
  h.settle_cycle (congrArg _ (h.afterE_cycle_of_ret hret)) (.inr (.inr (cycle_D_of_ret hret h.loaduse_false)))

/-- A jump in D that will not be taken decides the pc itself, and squashes the fetch behind it once it is in E (R168). -/
theorem settle_cycle_of_wrongPath (hpath : wrongPath s = true) : settle (cycle s) = settle s := by
  have hjump : (eInWith (afterE s).readReg s.D).icode = .IJXX ∧
      eCnd (eInWith (afterE s).readReg s.D) (cycle s).cc = false := by
    rw [cycle_cc_of_noExc h.excMW_false]
    by_contra hno
    rw [(wrongPath_eq_false_iff s (afterE s).readReg).2 hno] at hpath
    exact absurd hpath (by decide)
  have hm : mispredict (cycle s) = true := by
    rw [mispredict, h.cycle_E, hjump.1, hjump.2]
    rfl
  have hafter : afterE (cycle s) = afterD s := by
    rw [h.afterE_cycle, (agreeOffPC_afterM_cycle h.excMW_false).finishE_eq (.inr hjump)]
    rfl
  exact h.settle_cycle (congrArg _ hafter) (.inr (.inl hm))

/-- An exceptional instruction in D goes on to E, and the fetch behind it is without effect. -/
theorem settle_cycle_of_stopD (hD : (afterD s).run ≠ .running) : settle (cycle s) = settle s := by
  have hagree := h.agreeOffPC_afterE_cycle
  exact h.settle_cycle (hagree.atStop_eq hD) (.inl (by rwa [hagree.run_eq]))

/-- A cycle that issues nothing although the instruction in D enters E: a ret holds the fetch, the fetch is on the wrong
path, or the instruction in D stops the run. -/
theorem settle_cycle_of_not_issues (hissues : ¬issues s) : settle (cycle s) = settle s := by
  by_cases hret : retInFlight s = true
  · exact h.settle_cycle_of_ret hret
  by_cases hpath : wrongPath s = true
  · exact h.settle_cycle_of_wrongPath hpath
  refine h.settle_cycle_of_stopD fun rD => hissues ⟨?_, Bool.eq_false_of_not_eq_true hpath, ?_⟩
  · exact (modeD_eq_NORMAL_iff s).2 ⟨h.mispredict_false, h.loaduse_false, Bool.eq_false_of_not_eq_true hret⟩
  · rw [settle_eq_atStop_afterD h.mispredict_false h.running (afterW_running_of_noExc h.excMW_false h.running)
      (afterM_running_of_noExc h.excMW_false h.running) h.afterE_running, State.atStop_run, rD]

end Advancing

/-! ### Every cycle that does not issue -/

/-- By the oldest instruction that keeps the fetch from being issued: one that stops the run in W, M or E, a mispredicted
jump or a load in E, or the instruction in D. -/
theorem settle_cycle_of_not_issues {s : State} (hs : s.run = .running) (hslots : slotsLegal s) (hf : flowLegal s)
    (hissues : ¬issues s) : settle (cycle s) = settle s := by
  cases hW : s.W.stat.isExc with
  | true =>
    obtain ⟨e, he⟩ := Stat.isExc_iff.1 hW
    exact settle_cycle_of_excW hs hf he
  | false =>
  cases hM : (mStat s.M s).isExc with
  | true => exact settle_cycle_of_excM hs hW hM
  | false =>
  have hexc : excMW s = false := by simp [excMW, hW, hM]
  by_cases rE : (afterE s).run = .running
  case neg => exact settle_cycle_of_stopE hexc hs rE
  cases hm : mispredict s with
  | true => exact settle_cycle_of_mispredict hexc hs hm rE
  | false =>
  cases hl : loaduse s with
  | true => exact settle_cycle_of_loaduse hs hf hexc hm hl rE
  | false => exact Advancing.settle_cycle_of_not_issues ⟨hs, hslots, hexc, hm, hl, rE⟩ hissues

/-- Settles O49: a step is a cycle, and one that does not issue keeps `settle` (`settle_cycle_of_not_issues`). -/
theorem stepWithoutIssueKeepsState : Obligations.StepWithoutIssueKeepsState := fun s hrun hslots hflow hissues =>
  ⟨cycle s, (step_eq_next_iff _ _).2 ⟨hrun, rfl⟩, settle_cycle_of_not_issues hrun hslots hflow hissues⟩

end Sys2Proof.Machine
end

section
/-! PROOFS. The invariants along a cycle: every latch holds a slot Fetch can have delivered (41_fetch.md R107, R108,
44_memory_stage.md R152), and nothing follows what the hazard unit squashes behind (45_writeback_control.md R166, R168,
R171). -/

namespace Sys2Proof.Machine

/-- What holds of a latch's input, its old output and its bubble value holds of what it commits (R90). -/
theorem commit_property {α : Type} {P : α → Prop} {input output bubble : α} (mode : Mode) (hi : P input) (ho : P output)
    (hb : P bubble) : P (commit mode input output bubble) := by
  cases mode with
  | NORMAL => exact hi
  | STALL => exact ho
  | BUBBLE => exact hb

/-! ### Slots (R107, R108, R118, R119, R141, R151, R152) -/

/-- What `slotsLegal` says of latch D. -/
def slotLegalD (d : LatchD) : Prop := ifunLegal d.icode d.ifun = true ∧ statFits d.stat d.icode = true

/-- What `slotsLegal` says of latch E. -/
def slotLegalE (e : LatchE) : Prop :=
  ifunLegal e.icode e.ifun = true ∧ statFits e.stat e.icode = true ∧ destsFit e.icode e.dstE e.dstM = true

/-- What `slotsLegal` says of latch M. -/
def slotLegalM (m : LatchM) : Prop := statFits m.stat m.icode = true ∧ destsFit m.icode m.dstE m.dstM = true

/-- What `slotsLegal` says of latch W. -/
def slotLegalW (w : LatchW) : Prop := statFitsW w.stat w.icode = true ∧ destsFit w.icode w.dstE w.dstM = true

theorem slotsLegal_iff (s : State) :
    slotsLegal s ↔ slotLegalD s.D ∧ slotLegalE s.E ∧ slotLegalM s.M ∧ slotLegalW s.W := Iff.rfl

theorem slotLegalD_bubble : slotLegalD LatchD.bubble := ⟨rfl, rfl⟩
theorem slotLegalE_bubble : slotLegalE LatchE.bubble := ⟨rfl, rfl, rfl⟩
theorem slotLegalM_bubble : slotLegalM LatchM.bubble := ⟨rfl, rfl⟩
theorem slotLegalW_bubble : slotLegalW LatchW.bubble := ⟨rfl, rfl⟩

/-- An instruction has a function code of its own, and HLT exactly with a halt (R107). -/
theorem slotLegalD_instrSlot (i : Instr) (pc : Word) : slotLegalD (instrSlot i pc) := by
  cases i <;> exact ⟨rfl, rfl⟩

/-- Fetch delivers a legal slot, from an instruction as from a failed fetch (R108). -/
theorem slotLegalD_fetchSlot (s : State) (pc : Word) : slotLegalD (fetchSlot s pc) := by
  unfold fetchSlot
  cases fetchInstr s pc with
  | ok i rest => exact slotLegalD_instrSlot i pc
  | noFirstByte => exact ⟨rfl, rfl⟩
  | invalidFirstByte b => exact ⟨rfl, rfl⟩
  | tooShort length => exact ⟨rfl, rfl⟩

/-- Decode gives a code the destinations it has (R118, R119). -/
theorem destsFit_dstE_dstM (ic : Icode) (rA rB : RegId) : destsFit ic (dstE ic rB) (dstM ic rA) = true := by
  cases ic <;> simp [destsFit, dstE, dstM]

theorem slotLegalE_eInWith {d : LatchD} (h : slotLegalD d) (value : RegId → Word) : slotLegalE (eInWith value d) :=
  ⟨h.1, h.2, destsFit_dstE_dstM d.icode d.rA d.rB⟩

/-- A conditional move that is not made loses its one destination, which any move may lack (R141). -/
theorem slotLegalM_mIn {e : LatchE} (h : slotLegalE e) (cc : CC) : slotLegalM (mIn e cc) := by
  obtain ⟨-, hstat, hdests⟩ := h
  refine ⟨hstat, ?_⟩
  show destsFit e.icode (eDstE e cc) e.dstM = true
  by_cases hmove : e.icode = .IRRMOVQ
  · rw [hmove] at hdests ⊢
    exact hdests
  · rw [eDstE, if_neg fun h => hmove h.1]
    exact hdests

/-- A status that fits its code in Memory fits it in Writeback. -/
theorem statFitsW_of_statFits {st : Stat} {ic : Icode} (h : statFits st ic = true) : statFitsW st ic = true := by
  cases st with
  | ADR => simp_all [statFits, statFitsW]
  | BUB => exact h
  | AOK => exact h
  | HLT => exact h
  | INS => exact h

/-- Only a data access can turn a status into ADR (R150, R151). -/
theorem slotLegalW_wIn {m : LatchM} (h : slotLegalM m) (s : State) : slotLegalW (wIn m s) := by
  obtain ⟨hstat, hdests⟩ := h
  refine ⟨?_, hdests⟩
  show statFitsW (mStat m s) m.icode = true
  cases herr : dmemError m s with
  | true =>
    have haccess : isLoad m.icode = true ∨ isStore m.icode = true := by
      simp only [dmemError, Bool.or_eq_true, Bool.and_eq_true] at herr
      exact herr.imp And.left And.left
    rw [mStat, if_pos herr]
    rcases haccess with hl | hst
    · simp [statFitsW, hl]
    · simp [statFitsW, hst]
  | false =>
    rw [mStat, herr, if_neg Bool.false_ne_true]
    exact statFitsW_of_statFits hstat

/-- A cycle keeps the latches holding slots Fetch can have delivered (R94). -/
theorem slotsLegal_cycle {s : State} (h : slotsLegal s) : slotsLegal (cycle s) := by
  obtain ⟨hD, hE, hM, -⟩ := (slotsLegal_iff s).1 h
  exact (slotsLegal_iff (cycle s)).2
    ⟨commit_property _ (slotLegalD_fetchSlot s _) hD slotLegalD_bubble,
      commit_property _ (slotLegalE_eInWith hD _) hE slotLegalE_bubble,
      commit_property _ (slotLegalM_mIn hE _) hM slotLegalM_bubble,
      slotLegalW_wIn hM s⟩

/-! ### The flow (R161, R164 to R168, R171) -/

/-- Behind an empty D, E is empty after the cycle, whether it is bubbled or takes its input (R127, R165). -/
theorem cycle_E_of_D_bubble {s : State} (h : s.D = LatchD.bubble) : (cycle s).E = LatchE.bubble := by
  have hin : eIn s = LatchE.bubble := by rw [eIn, h, eInWith_bubble (operandValue_RNONE s)]
  rw [cycle_E, hin]
  cases hm : modeE s with
  | NORMAL => rfl
  | STALL => exact absurd hm (modeE_ne_STALL s)
  | BUBBLE => rfl

/-- Behind an empty E, M is empty after the cycle (R143, R166). -/
theorem cycle_M_of_E_bubble {s : State} (h : s.E = LatchE.bubble) : (cycle s).M = LatchM.bubble := by
  rw [cycle_M, h, mIn_bubble]
  unfold modeM
  split <;> rfl

/-- What is in E after a cycle is a bubble, or was in D with nothing that squashes or stalls it (R165). -/
theorem cycle_E_cases (s : State) :
    (cycle s).E = LatchE.bubble ∨ ((cycle s).E = eIn s ∧ mispredict s = false ∧ loaduse s = false) := by
  cases hm : mispredict s <;> cases hl : loaduse s <;> simp [modeE, hm, hl]

/-- What is in M after a cycle is a bubble or was in E (R166). -/
theorem cycle_M_cases (s : State) : (cycle s).M = LatchM.bubble ∨ (cycle s).M = mIn s.E s.cc := by
  cases h : excMW s <;> simp [modeM, h]

theorem loaduse_eq_false_of_icode {s : State} (h1 : s.E.icode ≠ .IMRMOVQ) (h2 : s.E.icode ≠ .IPOPQ) :
    loaduse s = false := by
  simp [loaduse, h1, h2]

/-- A cycle keeps the pipeline free of what the hazard unit squashes (R94, R163 to R173). -/
theorem flowLegal_cycle {s : State} (h : flowLegal s) : flowLegal (cycle s) := by
  obtain ⟨retE, retM, -, -, -⟩ := h
  refine ⟨fun hE => ?retInE, fun hM => ?retInM, fun hW => ?retInW, fun hj hc => ?jumpInM, fun hexc => ?excInW⟩
  case retInE =>
    rcases cycle_E_cases s with e | ⟨e, -, hl⟩
    · rw [e] at hE
      exact absurd hE (by decide)
    · rw [e] at hE
      have hD : s.D.icode = .IRET := hE
      exact cycle_D_of_ret (by simp [retInFlight, hD]) hl
  case retInM =>
    rcases cycle_M_cases s with e | e
    · rw [e] at hM
      exact absurd hM (by decide)
    · rw [e] at hM
      have hE : s.E.icode = .IRET := hM
      have hl : loaduse s = false := loaduse_eq_false_of_icode (by simp [hE]) (by simp [hE])
      exact ⟨cycle_E_of_D_bubble (retE hE), cycle_D_of_ret (by simp [retInFlight, hE]) hl⟩
  case retInW =>
    have hM : s.M.icode = .IRET := hW
    obtain ⟨hE, hD⟩ := retM hM
    have hl : loaduse s = false := loaduse_eq_false_of_icode (by simp [hE, LatchE.bubble]) (by simp [hE, LatchE.bubble])
    exact ⟨cycle_M_of_E_bubble hE, cycle_E_of_D_bubble hD, cycle_D_of_ret (by simp [retInFlight, hM]) hl⟩
  case jumpInM =>
    rcases cycle_M_cases s with e | e
    · rw [e] at hj
      exact absurd hj (by decide)
    · rw [e] at hj hc
      have hm : mispredict s = true := by
        have hE : s.E.icode = .IJXX := hj
        have hcnd : eCnd s.E s.cc = false := hc
        simp [mispredict, hE, hcnd]
      exact ⟨cycle_E_of_mispredict hm, cycle_D_of_mispredict hm⟩
  case excInW =>
    have hM : (mStat s.M s).isExc = true := hexc
    exact cycle_M_of_excMW (by simp [excMW, hM])

/-- The invariants hold after every number of cycles. -/
theorem legal_cycles {s : State} (hslots : slotsLegal s) (hflow : flowLegal s) (n : Nat) :
    slotsLegal (cycles n s) ∧ flowLegal (cycles n s) := by
  induction n generalizing s with
  | zero => exact ⟨hslots, hflow⟩
  | succ n ih =>
    exact ih (State.andThen_property (P := slotsLegal) hslots (slotsLegal_cycle hslots))
      (State.andThen_property (P := flowLegal) hflow (flowLegal_cycle hflow))

theorem slotsLegal_boot (capacity : Nat) (image : Memory) : slotsLegal (State.boot capacity image) :=
  (slotsLegal_iff _).2 ⟨slotLegalD_bubble, slotLegalE_bubble, slotLegalM_bubble, slotLegalW_bubble⟩

theorem flowLegal_boot (capacity : Nat) (image : Memory) : flowLegal (State.boot capacity image) :=
  ⟨fun _ => rfl, fun _ => ⟨rfl, rfl⟩, fun _ => ⟨rfl, rfl, rfl⟩, fun _ _ => ⟨rfl, rfl⟩, fun _ => rfl⟩

end Sys2Proof.Machine
end

section
/-! PROOFS. Whole runs: the pipeline's architectural state follows the straight-line machine, a step at each issuing
cycle (40_pipeline_cycle.md R97, R100). -/

namespace Sys2Proof.Machine

theorem cycles_succ_of_running {s : State} (h : s.run = .running) (k : Nat) : cycles (k + 1) s = cycles k (cycle s) := by
  rw [cycles, State.andThen_of_running h]

theorem straightLineStep_of_stopped {s : State} {e : Exc} (h : s.run = .stopped e) :
    straightLineStep s = .fault (.stopped e) := by
  simp [straightLineStep, h]

/-- A run that has stopped does not go on. -/
theorem straightLineRun_of_stopped {s : State} {e : Exc} (h : s.run = .stopped e) (k : Nat) : straightLineRun k s = s := by
  cases k with
  | zero => rfl
  | succ k => rw [straightLineRun, straightLineStep_of_stopped h]

theorem straightLineRun_succ {s u : State} (h : straightLineStep s = .next u) (k : Nat) :
    straightLineRun (k + 1) s = straightLineRun k u := by
  rw [straightLineRun, h]

/-- Clearing the pc of a stopped state once is enough. -/
theorem State.atStop_atStop (a : State) : a.atStop.atStop = a.atStop := by
  cases h : a.run with
  | running => rw [State.atStop_of_running h, State.atStop_of_running h]
  | stopped e =>
    have h0 : (a.setPC 0).run = .stopped e := h
    rw [State.atStop_of_stopped h, State.atStop_of_stopped h0]
    rfl

/-- `settle` leaves out the pc of a stopped state (R97). -/
theorem settle_atStop (s : State) : (settle s).atStop = settle s := by
  rw [settle, State.atStop_atStop]

/-- A straight-line run does not see whether the pc of a stopped state is left out. -/
theorem straightLineRun_atStop (k : Nat) (u : State) :
    (straightLineRun k u.atStop).atStop = (straightLineRun k u).atStop := by
  cases h : u.run with
  | running => rw [State.atStop_of_running h]
  | stopped e =>
    rw [straightLineRun_of_stopped ((State.atStop_run u).trans h), straightLineRun_of_stopped h, State.atStop_atStop]

/-- The straight-line machine reaches the architectural state after any number of cycles from the architectural state
before them, if no store in flight changes what is issued (R100, R240). -/
theorem straightLineRun_settle_of_cycles {s : State} (hslots : slotsLegal s) (hflow : flowLegal s) (n : Nat)
    (hfresh : ∀ k, k < n → issues (cycles k s) → fetchFresh (cycles k s)) :
    ∃ m, (straightLineRun m (settle s)).atStop = settle (cycles n s) := by
  induction n generalizing s with
  | zero => exact ⟨0, settle_atStop s⟩
  | succ n ih =>
    cases hrun : s.run with
    | stopped e =>
      rw [cycles_of_stopped hrun]
      exact ⟨0, settle_atStop s⟩
    | running =>
      obtain ⟨m, hm⟩ := ih (slotsLegal_cycle hslots) (flowLegal_cycle hflow) fun k hk => by
        rw [← cycles_succ_of_running hrun]
        exact hfresh (k + 1) (by omega)
      rw [cycles_succ_of_running hrun]
      by_cases hissues : issues s
      · obtain ⟨t, u, ht, hu, hsettle⟩ :=
          stepRefinesStraightLine s hrun hslots hflow hissues (hfresh 0 (by omega) hissues)
        obtain ⟨-, rfl⟩ := (step_eq_next_iff s t).1 ht
        refine ⟨m + 1, ?_⟩
        rw [straightLineRun_succ hu, ← straightLineRun_atStop, ← hsettle, hm]
      · exact ⟨m, by rw [← settle_cycle_of_not_issues hrun hslots hflow hissues, hm]⟩

/-- Right after a boot nothing is in flight: the architectural state is the state itself. -/
theorem settle_boot (capacity : Nat) (image : Memory) : settle (State.boot capacity image) = State.boot capacity image :=
  rfl

@[simp] theorem State.atStop_regs (a : State) : a.atStop.regs = a.regs := by
  unfold State.atStop
  split <;> rfl

@[simp] theorem State.atStop_mem (a : State) : a.atStop.mem = a.mem := by
  unfold State.atStop
  split <;> rfl

@[simp] theorem State.atStop_cc (a : State) : a.atStop.cc = a.cc := by
  unfold State.atStop
  split <;> rfl

/-- Settles O50: the straight-line machine reaches the architectural state of the stopped run
(`straightLineRun_settle_of_cycles`), and that is the stopped state but for its pc and latches. -/
theorem runMatchesStraightLine : Obligations.RunMatchesStraightLine := by
  intro capacity image n e hfresh hstop
  obtain ⟨m, hm⟩ := straightLineRun_settle_of_cycles (slotsLegal_boot capacity image) (flowLegal_boot capacity image)
    n hfresh
  rw [settle_boot, settle_of_stopped hstop] at hm
  refine ⟨m, ?run, ?regs, ?mem, ?cc⟩
  case run => rw [← hstop, ← State.atStop_run, hm]; rfl
  case regs => rw [← State.atStop_regs, hm]; rfl
  case mem => rw [← State.atStop_mem, hm]; rfl
  case cc => rw [← State.atStop_cc, hm]; rfl

end Sys2Proof.Machine
end

section
/-! PROOFS. The driver's loop counts the cycles of the run it drives, and a stopped state is final (40_pipeline_cycle.md
R97 to R99). -/

namespace Sys2Proof.Machine

/-- What the driver reports of a stopped state after a number of cycles (R99). -/
def State.result (s : State) (e : Exc) (n : Nat) : RunResult :=
  { status := e, regs := s.regs, cc := s.cc, mem := s.mem, cycles := n }

theorem driveFrom_of_stopped {s : State} {e : Exc} (h : s.run = .stopped e) (n limit : Nat) :
    driveFrom n limit s = some (s.result e n) := by
  cases limit <;> simp [driveFrom, h, State.result]

theorem driveFrom_zero_of_running {s : State} (h : s.run = .running) (n : Nat) : driveFrom n 0 s = none := by
  simp [driveFrom, h]

theorem driveFrom_succ_of_running {s : State} (h : s.run = .running) (n limit : Nat) :
    driveFrom n (limit + 1) s = driveFrom (n + 1) limit (cycle s) := by
  simp [driveFrom, h]

/-- A running state is running after `k` cycles if the next state is running after `k - 1`. -/
theorem running_of_running_cycle {s : State} (hs : s.run = .running) {P : Nat → Prop}
    (h : ∀ k, P (k + 1) → (cycles k (cycle s)).run = .running) (k : Nat) (hk : P k) : (cycles k s).run = .running := by
  cases k with
  | zero => exact hs
  | succ k => rw [cycles_succ_of_running hs]; exact h k hk

/-- Everything the driver can answer: the result of the first stopped state, counted on from `n`, if it comes within the
limit, and none if it does not (R98, R99). -/
theorem driveFrom_cases (limit n : Nat) (s : State) :
    (∃ k e, k ≤ limit ∧ (cycles k s).run = .stopped e ∧ (∀ j, j < k → (cycles j s).run = .running) ∧
      driveFrom n limit s = some ((cycles k s).result e (n + k))) ∨
    ((∀ k, k ≤ limit → (cycles k s).run = .running) ∧ driveFrom n limit s = none) := by
  induction limit generalizing n s with
  | zero =>
    cases h : s.run with
    | stopped e => exact .inl ⟨0, e, le_rfl, h, by omega, driveFrom_of_stopped h n 0⟩
    | running =>
      refine .inr ⟨fun k hk => ?_, driveFrom_zero_of_running h n⟩
      rw [Nat.le_zero.1 hk]
      exact h
  | succ limit ih =>
    cases h : s.run with
    | stopped e => exact .inl ⟨0, e, by omega, h, by omega, driveFrom_of_stopped h n _⟩
    | running =>
      rw [driveFrom_succ_of_running h]
      rcases ih (n + 1) (cycle s) with ⟨k, e, hk, hstop, hbefore, hdrive⟩ | ⟨hrunning, hdrive⟩
      · refine .inl ⟨k + 1, e, by omega, ?_, ?_, ?_⟩
        · rwa [cycles_succ_of_running h]
        · exact running_of_running_cycle h fun j hj => hbefore j (by omega)
        · rw [hdrive, cycles_succ_of_running h, Nat.add_right_comm, Nat.add_assoc]
      · exact .inr ⟨running_of_running_cycle h fun k hk => hrunning k (by omega), hdrive⟩

/-- Settles O56: by the two answers of the driver (`driveFrom_cases`), counted from 0. -/
theorem driverCountsCycles : Obligations.DriverCountsCycles := by
  intro limit s
  rcases driveFrom_cases limit 0 s with ⟨k, e, hk, hstop, hbefore, hdrive⟩ | ⟨hrunning, hdrive⟩
  · rw [Nat.zero_add] at hdrive
    refine ⟨fun r hr => ?_, fun hnone => ?_⟩
    · obtain rfl : (cycles k s).result e k = r := Option.some.inj (hdrive.symm.trans hr)
      exact ⟨hk, hstop, rfl, rfl, rfl, hbefore⟩
    · exact absurd (hdrive.symm.trans hnone) (by simp)
  · exact ⟨fun r hr => absurd (hdrive.symm.trans hr) (by simp), fun _ => hrunning⟩

/-- Settles O41: a stopped state has no step, and the driver reports it at once, by its registers, condition codes,
memory and status alone. -/
theorem stoppedIsFinal : Obligations.StoppedIsFinal := by
  intro s e h
  refine ⟨by simp [step, h], fun limit => driveFrom_of_stopped h 0 limit, fun limit d e' m w f => ?_⟩
  calc drive limit { s with F := f, D := d, E := e', M := m, W := w }
    _ = some (s.result e 0) := driveFrom_of_stopped (s := { s with F := f, D := d, E := e', M := m, W := w }) h 0 limit
    _ = drive limit s := (driveFrom_of_stopped h 0 limit).symm

end Sys2Proof.Machine
end

section
/-! PROOFS. The slots Fetch can have delivered, along a step: the three stages behind Fetch and the commit keep them
(41_fetch.md R107, R108, 42_decode.md R118, R119, 43_execute.md R141, 44_memory_stage.md R152). -/

namespace Sys2Proof.Machine

/-- Settles O43: a step is a cycle, which keeps every latch's slot legal (`slotsLegal_cycle`). -/
theorem stepKeepsSlotsLegal : Obligations.StepKeepsSlotsLegal := by
  intro s t hstep hslots
  obtain ⟨-, rfl⟩ := (step_eq_next_iff s t).1 hstep
  exact slotsLegal_cycle hslots

end Sys2Proof.Machine
end

section
/-! PROOFS. What Fetch reads at each address, and the slot it delivers (30_encoding.md R76, R81, 41_fetch.md R104 to
R109). -/

namespace Sys2Proof

/-! ### The decoder on a first byte and the bytes that are there (R76, R82, R106) -/

/-- Eight bytes or more hold a constant word (R78). -/
theorem takeWord_of_le_length {bs : List Byte} (h : 8 ≤ bs.length) : ∃ v rest, takeWord bs = some (v, rest) := by
  match bs, h with
  | _ :: _ :: _ :: _ :: _ :: _ :: _ :: _ :: _, _ => exact ⟨_, _, rfl⟩

/-- The length of a format in bytes (R72 to R76). -/
@[simp] def Template.length : Template → Nat
  | .formatN _ => 1
  | .formatR _ => 2
  | .formatRC _ => 10
  | .formatC _ => 9

/-- The first byte of an instruction selects a format of the instruction's length (R76, R81). -/
theorem opcodeMap_byte0 (i : Instr) : ∃ t, opcodeMap i.byte0 = some t ∧ t.length = i.length := by
  cases i <;> simp [opcodeMap, Instr.length, lengthOfIcode, Instr.icode, needRegids, needValC]

/-- A first byte that selects a format is the first byte of an instruction (R81). -/
theorem exists_byte0_of_opcodeMap {b0 : Byte} {t : Template} (h : opcodeMap b0 = some t) :
    ∃ i : Instr, i.byte0 = b0 := by
  have hrow := encodedFrom_of_opcodeMap h
  cases t with
  | formatN i => exact ⟨i, List.head_eq_of_cons_eq hrow⟩
  | formatR f => exact ⟨f 0 0, List.head_eq_of_cons_eq (hrow 0 0)⟩
  | formatRC f => exact ⟨f 0 0 0, List.head_eq_of_cons_eq (hrow 0 0 0)⟩
  | formatC f => exact ⟨f 0, List.head_eq_of_cons_eq (hrow 0)⟩

/-- A byte with which no instruction begins selects no format (R82). -/
theorem opcodeMap_eq_none_of_forall_byte0_ne {b0 : Byte} (h : ∀ i : Instr, i.byte0 ≠ b0) : opcodeMap b0 = none := by
  cases hmap : opcodeMap b0 with
  | none => rfl
  | some t =>
    obtain ⟨i, hi⟩ := exists_byte0_of_opcodeMap hmap
    exact absurd hi (h i)

/-- Fewer bytes than the format has are too short for it (R106). -/
theorem decodeOperands_of_short {t : Template} {bs : List Byte} (h : bs.length + 1 < t.length) :
    decodeOperands t bs = .tooShort t.length := by
  cases t with
  | formatN i => simp at h
  | formatR f =>
    cases bs with
    | nil => rfl
    | cons b1 rest => simp at h
  | formatRC f =>
    cases bs with
    | nil => rfl
    | cons b1 rest =>
      have hnone : takeWord rest = none := takeWord_eq_none (by simp at h; omega)
      rw [decodeOperands, hnone, Template.length]
  | formatC f =>
    have hnone : takeWord bs = none := takeWord_eq_none (by simp at h; omega)
    rw [decodeOperands, hnone, Template.length]

/-- As many bytes as the format has, or more, hold an instruction (R106). -/
theorem decodeOperands_of_long {t : Template} {bs : List Byte} (h : t.length ≤ bs.length + 1) :
    ∃ i rest, decodeOperands t bs = .ok i rest := by
  cases t with
  | formatN i => exact ⟨i, bs, rfl⟩
  | formatR f =>
    cases bs with
    | nil => simp at h
    | cons b1 rest => exact ⟨_, rest, rfl⟩
  | formatRC f =>
    cases bs with
    | nil => simp at h
    | cons b1 rest =>
      obtain ⟨v, rest', hv⟩ := takeWord_of_le_length (bs := rest) (by simp at h; omega)
      exact ⟨_, rest', by rw [decodeOperands, hv]⟩
  | formatC f =>
    obtain ⟨v, rest', hv⟩ := takeWord_of_le_length (bs := bs) (by simp at h; omega)
    exact ⟨_, rest', by rw [decodeOperands, hv]⟩

theorem decode_of_opcodeMap {b0 : Byte} {t : Template} (h : opcodeMap b0 = some t) (bs : List Byte) :
    decode (b0 :: bs) = decodeOperands t bs := by
  simp only [decode, h]

/-- An instruction of which a byte is missing cannot be read, whatever the bytes are that are there (R106). -/
theorem decode_byte0_of_short {i : Instr} {bs : List Byte} (h : bs.length + 1 < i.length) :
    decode (i.byte0 :: bs) = .tooShort i.length := by
  obtain ⟨t, hmap, hlen⟩ := opcodeMap_byte0 i
  rw [← hlen] at h ⊢
  rw [decode_of_opcodeMap hmap, decodeOperands_of_short h]

/-- Bytes enough for `i` after its first byte hold an instruction: not always `i`, but one that begins with the same
byte. -/
theorem decode_byte0_of_long {i : Instr} {bs : List Byte} (h : i.length ≤ bs.length + 1) :
    ∃ j rest, decode (i.byte0 :: bs) = .ok j rest ∧ j.byte0 = i.byte0 := by
  obtain ⟨t, hmap, hlen⟩ := opcodeMap_byte0 i
  obtain ⟨j, rest, hj⟩ := decodeOperands_of_long (hlen.symm ▸ h)
  have hdecode : decode (i.byte0 :: bs) = .ok j rest := (decode_of_opcodeMap hmap bs).trans hj
  exact ⟨j, rest, hdecode, (List.head_eq_of_cons_eq (decodeReadsOnlyEncodings _ _ _ hdecode)).symm⟩

/-- halt alone has the first byte 0x00 (R81). -/
theorem byte0_eq_zero_iff (i : Instr) : i.byte0 = 0x00 ↔ i = .halt := by
  cases i <;> simp

namespace Machine

/-! ### What Fetch reads (R104 to R106) -/

section read

variable {s : State} {pc : Word}

/-- Beyond the capacity there is no first byte (R104). -/
theorem fetchInstr_of_outside (h : s.memCapacity ≤ pc.toNat) : fetchInstr s pc = .noFirstByte := by
  rw [fetchInstr, fetchWindow_eq_nil s pc h, decode]

/-- A readable first byte that begins no instruction is answered as it is (R105). -/
theorem fetchInstr_of_invalid (h : pc.toNat < s.memCapacity) (hinv : ∀ i : Instr, i.byte0 ≠ s.mem.read pc.toNat) :
    fetchInstr s pc = .invalidFirstByte (s.mem.read pc.toNat) := by
  rw [fetchInstr, fetchWindow_eq_cons s pc h, decode_eq_invalidFirstByte_iff]
  exact ⟨opcodeMap_eq_none_of_forall_byte0_ne hinv, rfl⟩

variable {i : Instr}

/-- A first byte whose instruction runs beyond the capacity (R106). -/
theorem fetchInstr_of_cut (h : pc.toNat < s.memCapacity) (hi : i.byte0 = s.mem.read pc.toNat)
    (hcut : s.memCapacity < pc.toNat + i.length) : fetchInstr s pc = .tooShort i.length := by
  rw [fetchInstr, fetchWindow_eq_cons s pc h, ← hi]
  apply decode_byte0_of_short
  rw [Memory.length_readBytes]
  omega

/-- A first byte whose instruction lies in memory to its end (R106). -/
theorem fetchInstr_of_whole (hi : i.byte0 = s.mem.read pc.toNat) (hwhole : pc.toNat + i.length ≤ s.memCapacity) :
    ∃ j rest, fetchInstr s pc = .ok j rest ∧ j.byte0 = i.byte0 := by
  obtain ⟨hpos, hmax⟩ := i.length_bounds
  rw [fetchInstr, fetchWindow_eq_cons s pc (by omega), ← hi]
  apply decode_byte0_of_long
  rw [Memory.length_readBytes]
  omega

end read

/-! ### The slot Fetch delivers (R107, R108) -/

/-- The status of a fetched instruction (R107). -/
theorem fetchedStat_eq (i : Instr) : fetchedStat i = if i = .halt then .HLT else .AOK := by
  cases i <;> rfl

theorem fetchedStat_ne_error (i : Instr) : fetchedStat i ≠ .ADR ∧ fetchedStat i ≠ .INS := by
  rw [fetchedStat_eq]
  split <;> decide

/-- Everything Fetch can deliver: the slot of the instruction it reads, or the slot of an error. -/
theorem fetchSlot_cases (s : State) (pc : Word) :
    (∃ i rest, fetchInstr s pc = .ok i rest ∧ fetchSlot s pc = instrSlot i pc) ∨
      ∃ st length, (st = .ADR ∨ st = .INS) ∧ fetchSlot s pc = errorSlot st pc length := by
  unfold fetchSlot
  cases fetchInstr s pc with
  | ok i rest => exact .inl ⟨i, rest, rfl, rfl⟩
  | noFirstByte => exact .inr ⟨.ADR, 1, .inl rfl, rfl⟩
  | invalidFirstByte b => exact .inr ⟨.INS, 1, .inr rfl, rfl⟩
  | tooShort length => exact .inr ⟨.ADR, length, .inl rfl, rfl⟩

/-- Settles O28: the status of what Fetch reads, case by case in the order of priority. -/
theorem fetchStatus : Obligations.FetchStatus := by
  refine fun s pc => ⟨fun h => ?outside, fun h hinv => ?invalid, fun i h hi => ?valid⟩
  case outside =>
    rw [fetchSlot, fetchInstr_of_outside h]
    rfl
  case invalid =>
    rw [fetchSlot, fetchInstr_of_invalid h hinv]
    rfl
  case valid =>
    by_cases hcut : s.memCapacity < pc.toNat + i.length
    · rw [fetchSlot, fetchInstr_of_cut h hi hcut, if_pos hcut]
      rfl
    · obtain ⟨j, rest, hj, hbyte⟩ := fetchInstr_of_whole hi (Nat.not_lt.1 hcut)
      rw [fetchSlot, hj, if_neg hcut, ← hi, ← hbyte]
      simp only [byte0_eq_zero_iff]
      exact fetchedStat_eq j

/-- Settles O29: an instruction's status is neither ADR nor INS, and an error's is one of them (`fetchSlot_cases`). -/
theorem fetchedFields : Obligations.FetchedFields := by
  intro s pc
  rcases fetchSlot_cases s pc with ⟨i, rest, hi, hslot⟩ | ⟨st, length, hst, hslot⟩
  · rw [hslot]
    exact ⟨fun herror => absurd herror (not_or.2 (fetchedStat_ne_error i)),
      fun _ _ => ⟨i, rest, hi, rfl, rfl, rfl, rfl, rfl⟩⟩
  · rw [hslot]
    exact ⟨fun _ => ⟨rfl, rfl, rfl, rfl, rfl⟩, fun hadr hins => absurd hst (not_or.2 ⟨hadr, hins⟩)⟩

end Machine

end Sys2Proof
end

section
/-! PROOFS. Where Fetch reads, what it predicts, and what a step latches of it (41_fetch.md R102, R106 to R112). -/

namespace Sys2Proof.Machine

/-! ### Prediction (R110) -/

/-- Behind an exceptional fetch the prediction is its own address. -/
theorem predictPC_of_exc {slot : LatchD} (h : slot.stat.isExc = true) (pc : Word) : predictPC slot pc = pc :=
  if_pos h

/-- A jump in a legal slot has a normal status (R107, R108). -/
theorem isExc_eq_false_of_jump {d : LatchD} (h : slotLegalD d) (hj : d.icode = .IJXX) : d.stat.isExc = false := by
  obtain ⟨-, hstat⟩ := h
  rw [hj] at hstat
  cases hst : d.stat with
  | BUB | AOK => rfl
  | HLT | ADR | INS => simp [hst, statFits] at hstat

/-- The successor Fetch predicts of an instruction. -/
theorem predictPC_instrSlot (i : Instr) (pc : Word) :
    predictPC (instrSlot i pc) pc =
      if i = .halt then pc
      else if i.icode = .IJXX ∨ i.icode = .ICALL then i.valC
      else pc + BitVec.ofNat 64 i.length := by
  have hexc : (instrSlot i pc).stat.isExc = true ↔ i = .halt := by
    show (fetchedStat i).isExc = true ↔ _
    rw [fetchedStat_eq]
    split <;> simp_all [Stat.isExc, Stat.exc?]
  simp only [predictPC, hexc]
  rfl

/-- Settles O27: the three cases of `fetchPC`; the condition of an unconditional jump; and the prediction of a jump,
whose status is never exceptional. -/
theorem pcSelection : Obligations.PCSelection := by
  refine ⟨fun s => ⟨fun hj hc => ?jump, fun hno hret => ?ret, fun hno hret => ?predicted⟩,
    fun e cc hj hfn => ?always, fun s pc hj => ?taken⟩
  case jump => rw [fetchPC, if_pos ⟨hj, hc⟩]
  case ret => rw [fetchPC, if_neg hno, if_pos hret]
  case predicted => rw [fetchPC, if_neg hno, if_neg hret]
  case always =>
    show eCnd e cc = true
    simp [eCnd, hj, hfn, Machine.cond]
  case taken => simp [predictPC, isExc_eq_false_of_jump (slotLegalD_fetchSlot s pc) hj, hj]

/-! ### What a step latches (R112) -/

theorem cycle_D_of_NORMAL {s : State} (h : modeD s = .NORMAL) : (cycle s).D = dIn s := by simp [h]

theorem cycle_predPC_of_NORMAL {s : State} (h : modeF s = .NORMAL) :
    (cycle s).F.predPC = predictPC (dIn s) (fetchPC s) := by
  rw [cycle_F, h]
  rfl

/-- Settles O30: Fetch delivers the instruction's slot (`fetchSlot_of_instrAt`), D takes it, and F takes its
prediction. -/
theorem stepFetchesDecoded : Obligations.StepFetchesDecoded := by
  intro s i hrun hat
  have hslot : dIn s = instrSlot i (fetchPC s) := fetchSlot_of_instrAt hat
  refine ⟨cycle s, (step_eq_next_iff _ _).2 ⟨hrun, rfl⟩, fun hD => ?_, fun hF => ?_⟩
  · rw [cycle_D_of_NORMAL hD, hslot, length_encode, instrSlot, fetchedStat_eq]
  · rw [cycle_predPC_of_NORMAL hF, hslot, length_encode, predictPC_instrSlot]

/-- Fetch sees nothing of the state but the memory and the capacity (R104, R106, R113). -/
theorem fetchSlot_congr {s t : State} (hm : t.mem = s.mem) (hc : t.memCapacity = s.memCapacity) (pc : Word) :
    fetchSlot t pc = fetchSlot s pc := by
  simp only [fetchSlot, fetchInstr, fetchWindow, hm, hc]

/-- Settles O31: the prediction is the exceptional fetch's own address (`predictPC_of_exc`), and the bytes there are the
same. -/
theorem exceptionalFetchRepeats : Obligations.ExceptionalFetchRepeats := by
  intro s t hstep hexc hF hD hpc hmem
  obtain ⟨-, rfl⟩ := (step_eq_next_iff s t).1 hstep
  have hlatched : (cycle s).D = dIn s := cycle_D_of_NORMAL hD
  have haddr : fetchPC (cycle s) = fetchPC s := by
    rw [hpc, cycle_predPC_of_NORMAL hF, predictPC_of_exc hexc]
  refine ⟨hlatched, haddr, ?_⟩
  calc dIn (cycle s)
    _ = fetchSlot s (fetchPC (cycle s)) := fetchSlot_congr hmem (cycle_memCapacity s) _
    _ = (cycle s).D := by rw [haddr, hlatched, dIn]

end Sys2Proof.Machine
end

section
/-! PROOFS. An operand Decode takes is the register's architectural value, but for a load in E (42_decode.md R121 to
R126; log entry 6). -/

namespace Sys2Proof.Machine

/-- A completion that leaves the run going has taken place. -/
theorem State.andThen_eq_of_run_eq_running {a : State} {f : State → State} (h : (a.andThen f).run = .running) :
    a.andThen f = f a :=
  State.andThen_of_running (State.andThen_run_eq_running_iff.1 h).1 f

/-- Where the run goes on after W, M and E, all three have completed: the state is `afterE`. -/
theorem andThen_finishE_eq_afterE {s : State}
    (h : (((s.drained.andThen (finishW s.W)).andThen (finishM s.M)).andThen (finishE s.E)).run = .running) :
    ((s.drained.andThen (finishW s.W)).andThen (finishM s.M)).andThen (finishE s.E) = afterE s := by
  obtain ⟨hM, -⟩ := State.andThen_run_eq_running_iff.1 h
  obtain ⟨hW, -⟩ := State.andThen_run_eq_running_iff.1 hM
  rw [State.andThen_eq_of_run_eq_running h, State.andThen_eq_of_run_eq_running hM,
    State.andThen_eq_of_run_eq_running hW]
  rfl

/-- Only the two loads into a register name one for the memory result (R119). -/
theorem load_of_dstM_ne_RNONE {ic : Icode} {dE dM : RegId} (hfit : destsFit ic dE dM = true) (hne : dM ≠ RNONE) :
    ic = .IMRMOVQ ∨ ic = .IPOPQ := by
  cases ic <;> simp_all [destsFit]

/-- Settles O36: the state after W, M and E is `afterE`, where the register holds the operand unless E's memory result
goes to it (`operandValue_eq_readReg_afterE`), and that result is a load's (`load_of_dstM_ne_RNONE`). -/
theorem forwardedOperandIsArchitectural : Obligations.ForwardedOperandIsArchitectural := by
  rintro s a src hslots rfl hrun hnoLoad
  obtain ⟨-, ⟨-, -, hfit⟩, -, -⟩ := hslots
  rw [andThen_finishE_eq_afterE hrun]
  refine operandValue_eq_readReg_afterE fun hne hsrc => hnoLoad ⟨?load, hsrc.symm, ?named⟩
  case load => exact load_of_dstM_ne_RNONE hfit hne
  case named => exact hsrc ▸ hne

end Sys2Proof.Machine
end

section
/-! PROOFS. What an arithmetic instruction's condition codes say of its operands as signed numbers, and what the condition
tests then say (43_execute.md R135, R138). -/

namespace Sys2Proof.Machine

/-! ### The overflow flag (R135) -/

theorem newCC_ADD_OF (a b : Word) : (newCC ADD a b).OF = ((a.msb == b.msb) && ((b + a).msb != a.msb)) := rfl

theorem newCC_SUB_OF (a b : Word) : (newCC SUB a b).OF = ((a.msb != b.msb) && ((b - a).msb != b.msb)) := rfl

/-- The rule's formula for ADD is signed overflow: equal signs, and a sum of the other sign. -/
theorem newCC_ADD_OF_eq_saddOverflow (a b : Word) : (newCC ADD a b).OF = b.saddOverflow a := by
  rw [newCC_ADD_OF, BitVec.saddOverflow_eq]
  cases a.msb <;> cases b.msb <;> simp

/-- The rule's formula for SUB is signed overflow: different signs, and a difference of the other sign than `b`. -/
theorem newCC_SUB_OF_eq_ssubOverflow (a b : Word) : (newCC SUB a b).OF = b.ssubOverflow a := by
  rw [newCC_SUB_OF, BitVec.ssubOverflow_eq]
  cases a.msb <;> cases b.msb <;> simp

theorem newCC_ADD_OF_eq_outOfRange (a b : Word) :
    (newCC ADD a b).OF = decide (b.toInt + a.toInt < -2 ^ 63 ∨ 2 ^ 63 ≤ b.toInt + a.toInt) := by
  rw [newCC_ADD_OF_eq_saddOverflow, BitVec.saddOverflow, Bool.or_comm, Bool.decide_or]

theorem newCC_SUB_OF_eq_outOfRange (a b : Word) :
    (newCC SUB a b).OF = decide (b.toInt - a.toInt < -2 ^ 63 ∨ 2 ^ 63 ≤ b.toInt - a.toInt) := by
  rw [newCC_SUB_OF_eq_ssubOverflow, BitVec.ssubOverflow, Bool.or_comm, Bool.decide_or]

/-- Settles O9: ZF and SF are read off the result; OF is the library's signed overflow. -/
theorem arithmeticFlags : Obligations.ArithmeticFlags :=
  ⟨fun fn a b => ⟨rfl, BitVec.msb_eq_getLsbD_last (alu fn a b)⟩,
   fun a b => ⟨newCC_ADD_OF a b, newCC_SUB_OF a b, rfl, rfl,
     newCC_ADD_OF_eq_outOfRange a b, newCC_SUB_OF_eq_outOfRange a b⟩⟩

/-! ### The flags of a subtraction as comparisons (R138) -/

/-- The sign of a difference, corrected where the subtraction overflows, is the sign of the exact difference: without
overflow the two differences are one number, and with overflow the operands' signs already order them. -/
theorem msb_sub_xor_ssubOverflow {w : Nat} (x y : BitVec w) :
    ((x - y).msb ^^ x.ssubOverflow y) = decide (x.toInt < y.toInt) := by
  cases hov : x.ssubOverflow y with
  | false =>
    have hexact : (x - y).toInt = x.toInt - y.toInt := BitVec.toInt_sub_of_not_ssubOverflow (by simp [hov])
    rw [Bool.xor_false, BitVec.msb_eq_toInt, hexact, decide_eq_decide]
    exact sub_neg
  | true =>
    have hsigns : x.msb = false ∧ y.msb = true ∧ (x - y).msb = true ∨
        x.msb = true ∧ y.msb = false ∧ (x - y).msb = false := by
      simpa [BitVec.ssubOverflow_eq, and_assoc] using hov
    obtain ⟨hx, hy, hsub⟩ | ⟨hx, hy, hsub⟩ := hsigns
    · have hlt : y.toInt < x.toInt :=
        (BitVec.toInt_neg_of_msb_true hy).trans_le (BitVec.toInt_nonneg_of_msb_false hx)
      simp [hsub, hlt.le]
    · have hlt : x.toInt < y.toInt :=
        (BitVec.toInt_neg_of_msb_true hx).trans_le (BitVec.toInt_nonneg_of_msb_false hy)
      simp [hsub, hlt]

/-- SF and OF differ after subq exactly where `b < a`. -/
theorem newCC_SUB_SF_xor_OF (a b : Word) :
    ((newCC SUB a b).SF ^^ (newCC SUB a b).OF) = decide (b.toInt < a.toInt) := by
  rw [newCC_SUB_OF_eq_ssubOverflow]
  exact msb_sub_xor_ssubOverflow b a

theorem newCC_SUB_ZF (a b : Word) : (newCC SUB a b).ZF = decide (b = a) := by
  change (b - a == 0) = decide (b = a)
  rw [Bool.eq_iff_iff, beq_iff_eq, decide_eq_true_iff]
  exact sub_eq_zero

/-! ### The condition tests (R138) -/

section table
variable (cc : CC)

@[simp] theorem cond_always : Machine.cond cc 0 = true := rfl
@[simp] theorem cond_le : Machine.cond cc 1 = ((cc.SF ^^ cc.OF) || cc.ZF) := rfl
@[simp] theorem cond_l : Machine.cond cc 2 = (cc.SF ^^ cc.OF) := rfl
@[simp] theorem cond_e : Machine.cond cc 3 = cc.ZF := rfl
@[simp] theorem cond_ne : Machine.cond cc 4 = !cc.ZF := rfl
@[simp] theorem cond_ge : Machine.cond cc 5 = !(cc.SF ^^ cc.OF) := rfl
@[simp] theorem cond_g : Machine.cond cc 6 = (!(cc.SF ^^ cc.OF) && !cc.ZF) := rfl

end table

/-- Settles O10: after subq, `SF ^^ OF` is `b < a` and ZF is `b = a`; each test is made of the two. -/
theorem conditionTests : Obligations.ConditionTests := by
  refine ⟨fun cc => ⟨cond_always cc, cond_le cc, cond_l cc, cond_e cc, cond_ne cc, cond_ge cc, cond_g cc⟩,
    fun a b => ?_⟩
  have heq : b = a ↔ b.toInt = a.toInt := BitVec.toInt_inj.symm
  rw [cond_le, cond_l, cond_e, cond_ne, cond_ge, cond_g, newCC_SUB_SF_xor_OF, newCC_SUB_ZF]
  refine ⟨?le, rfl, rfl, ?ne, ?ge, ?g⟩
  case le => rw [← Bool.decide_or, decide_eq_decide, heq, ← le_iff_lt_or_eq]
  case ne => exact decide_not.symm
  case ge => rw [← decide_not, decide_eq_decide, not_lt]
  case g => rw [← Bool.not_or, ← Bool.decide_or, ← decide_not, decide_eq_decide, heq, ← le_iff_lt_or_eq, not_le]

end Sys2Proof.Machine
end

section
/-! PROOFS. The flow along a step, and the hazard conditions: which exclude each other, and the commit mode each gives a
latch (41_fetch.md R103, 45_writeback_control.md R163 to R167, R170, R172). -/

namespace Sys2Proof.Machine

/-- Settles O44: a step is a cycle, which keeps the flow legal (`flowLegal_cycle`). -/
theorem stepKeepsFlowLegal : Obligations.StepKeepsFlowLegal := by
  intro s t hstep hflow
  obtain ⟨-, rfl⟩ := (step_eq_next_iff s t).1 hstep
  exact flowLegal_cycle hflow

/-! ### What each hazard condition says of the latches (R159, R160) -/

theorem mispredict_iff (s : State) : mispredict s = true ↔ s.E.icode = .IJXX ∧ eCnd s.E s.cc = false := by
  simp [mispredict]

theorem loaduse_iff (s : State) :
    loaduse s = true ↔ (s.E.icode = .IMRMOVQ ∨ s.E.icode = .IPOPQ) ∧ s.E.dstM ≠ RNONE ∧
      (s.E.dstM = srcA s.D.icode s.D.rA ∨ s.E.dstM = srcB s.D.icode s.D.rB) := by
  simp [loaduse, and_assoc]

theorem loaduse_eq_false_of_E_bubble {s : State} (h : s.E = LatchE.bubble) : loaduse s = false := by
  rw [loaduse, h]
  rfl

/-- A jump in E is no load (R170). -/
theorem loaduse_eq_false_of_mispredict {s : State} (h : mispredict s = true) : loaduse s = false := by
  obtain ⟨hE, -⟩ := (mispredict_iff s).1 h
  exact loaduse_eq_false_of_icode (by simp [hE]) (by simp [hE])

/-- A load in E is no jump (R170). -/
theorem mispredict_eq_false_of_loaduse {s : State} (h : loaduse s = true) : mispredict s = false := by
  by_contra hm
  rw [loaduse_eq_false_of_mispredict (Bool.eq_true_of_not_eq_false hm)] at h
  exact absurd h (by decide)

/-- Settles O35: a jump is no load (`loaduse_eq_false_of_mispredict`), and behind a ret in W there is no jump in M but a
bubble. -/
theorem hazardsExclude : Obligations.HazardsExclude := by
  refine ⟨fun s ⟨hm, hl⟩ => ?hazards, fun s hflow ⟨⟨hj, _⟩, hret⟩ => ?redirections⟩
  case hazards => exact absurd hl (by simp [loaduse_eq_false_of_mispredict hm])
  case redirections =>
    obtain ⟨-, -, hW, -, -⟩ := hflow
    obtain ⟨hM, -, -⟩ := hW hret
    rw [hM] at hj
    exact absurd hj (by decide)

/-! ### The commit mode a condition gives a latch (R163 to R165) -/

theorem modeF_of_loaduse {s : State} (h : loaduse s = true) : modeF s = .STALL := by simp [modeF, h]

theorem modeF_of_ret {s : State} (h : retInFlight s = true) : modeF s = .STALL := by simp [modeF, h]

theorem modeF_of_noHold {s : State} (hl : loaduse s = false) (hr : retInFlight s = false) : modeF s = .NORMAL := by
  simp [modeF, hl, hr]

theorem modeD_of_mispredict {s : State} (h : mispredict s = true) : modeD s = .BUBBLE := by simp [modeD, h]

theorem modeD_of_ret {s : State} (hr : retInFlight s = true) (hl : loaduse s = false) : modeD s = .BUBBLE := by
  simp [modeD, hr, hl]

/-- The stall of a load-use hazard goes before the bubble of a ret (R164). -/
theorem modeD_of_loaduse {s : State} (h : loaduse s = true) : modeD s = .STALL := by
  simp [modeD, h, mispredict_eq_false_of_loaduse h]

theorem modeE_of_mispredict {s : State} (h : mispredict s = true) : modeE s = .BUBBLE := by simp [modeE, h]

theorem modeE_of_loaduse {s : State} (h : loaduse s = true) : modeE s = .BUBBLE := by simp [modeE, h]

theorem modeE_of_noSquash {s : State} (hm : mispredict s = false) (hl : loaduse s = false) : modeE s = .NORMAL := by
  simp [modeE, hm, hl]

/-- Settles O34: the rows of the table, each by the conditions it names; a row with a misprediction has no load-use
hazard (`loaduse_eq_false_of_mispredict`). -/
theorem controlModes : Obligations.ControlModes := by
  intro s
  refine ⟨fun hl hm hr => ?none, fun hl _ => ?loaduse, fun hm hr => ?mispredict, fun hr hl hm => ?ret,
    fun hm hr => ?mispredictRet, fun hl _ => ?loaduseRet, rfl, rfl⟩
  case none => exact ⟨modeF_of_noHold hl hr, (modeD_eq_NORMAL_iff s).2 ⟨hm, hl, hr⟩, modeE_of_noSquash hm hl⟩
  case loaduse => exact ⟨modeF_of_loaduse hl, modeD_of_loaduse hl, modeE_of_loaduse hl⟩
  case mispredict =>
    exact ⟨modeF_of_noHold (loaduse_eq_false_of_mispredict hm) hr, modeD_of_mispredict hm, modeE_of_mispredict hm⟩
  case ret => exact ⟨modeF_of_ret hr, modeD_of_ret hr hl, modeE_of_noSquash hm hl⟩
  case mispredictRet => exact ⟨modeF_of_ret hr, modeD_of_mispredict hm, modeE_of_mispredict hm⟩
  case loaduseRet => exact ⟨modeF_of_loaduse hl, modeD_of_loaduse hl, modeE_of_loaduse hl⟩

end Sys2Proof.Machine
end

section
/-! PROOFS. What a load-use hazard, a misprediction and a return cost: the latches after the cycles they take, and where
the dependent instruction or the next fetch then finds its value (45_writeback_control.md R168, R169, R171). -/

namespace Sys2Proof.Machine

/-- Past a cycle with no exceptional status in M or W, the instruction in E is in M (R166). -/
theorem cycle_M_of_noExc {s : State} (h : excMW s = false) : (cycle s).M = mIn s.E s.cc := by simp [modeM, h]

/-! ### A load-use hazard (R169) -/

/-- With a bubble in E the register a load in M will write reads as the loaded value (R121 to R123). -/
theorem operandValue_of_load_in_M {s : State} {src : RegId} (hE : s.E = LatchE.bubble) (hM : s.M.dstM = src)
    (hne : src ≠ RNONE) : operandValue s src = mValM s.M s := by
  have hdstE : eDstE s.E s.cc = RNONE := by rw [hE]; rfl
  simp [operandValue, forwardSources, forwarded, hdstE, hM, hne]

/-- Settles O37: the modes of a load-use hazard hold F and D and empty E, and past the cycle the load is in M, whose
memory result is the first one forwarded (`operandValue_of_load_in_M`). -/
theorem loadUseCostsOneCycle : Obligations.LoadUseCostsOneCycle := by
  intro s hrun hl hexc
  obtain ⟨-, hne, -⟩ := (loaduse_iff s).1 hl
  have hE : (cycle s).E = LatchE.bubble := by rw [cycle_E, modeE_of_loaduse hl, commit_BUBBLE]
  have hdstM : (cycle s).M.dstM = s.E.dstM := by rw [cycle_M_of_noExc hexc]; rfl
  have hloaded : ∀ src, src = s.E.dstM → operandValue (cycle s) src = mValM (cycle s).M (cycle s) := by
    rintro _ rfl
    exact operandValue_of_load_in_M hE hdstM hne
  exact ⟨cycle s, (step_eq_next_iff _ _).2 ⟨hrun, rfl⟩, by rw [cycle_F, modeF_of_loaduse hl, commit_STALL],
    by rw [cycle_D, modeD_of_loaduse hl, commit_STALL], hE, loaduse_eq_false_of_E_bubble hE, hloaded _, hloaded _⟩

/-! ### A misprediction (R168) -/

theorem fetchPC_of_mispredicted {s : State} (hj : s.M.icode = .IJXX) (hc : s.M.Cnd = false) : fetchPC s = s.M.valA :=
  if_pos ⟨hj, hc⟩

/-- Settles O38: the two younger instructions are bubbled, and the jump enters M with its condition false, where Fetch
takes its address from (R102). -/
theorem mispredictionSquashesTwo : Obligations.MispredictionSquashesTwo := by
  intro s hrun hm hexc
  obtain ⟨hj, hc⟩ := (mispredict_iff s).1 hm
  have hM : (cycle s).M = mIn s.E s.cc := cycle_M_of_noExc hexc
  have hjM : (cycle s).M.icode = .IJXX := by rw [hM]; exact hj
  have hcM : (cycle s).M.Cnd = false := by rw [hM]; exact hc
  refine ⟨cycle s, (step_eq_next_iff _ _).2 ⟨hrun, rfl⟩, cycle_D_of_mispredict hm, cycle_E_of_mispredict hm, hjM, ?_⟩
  rw [fetchPC_of_mispredicted hjM hcM, hM]
  rfl

/-! ### A return (R171) -/

/-- A run that goes on past a cycle was going on before it. -/
theorem running_of_cycles_succ_running {s : State} {k : Nat} (h : (cycles (k + 1) s).run = .running) :
    s.run = .running ∧ (cycles k (cycle s)).run = .running := by
  cases hs : s.run with
  | running => exact ⟨rfl, cycles_succ_of_running hs k ▸ h⟩
  | stopped e =>
    rw [cycles_of_stopped hs, hs] at h
    exact absurd h (by simp)

/-- An exceptional status in M or W stops the run within two cycles (R96). -/
theorem excMW_eq_false_of_running {s : State} (h : (cycle (cycle s)).run = .running) : excMW s = false := by
  obtain ⟨h1, hM⟩ := (RunStatus.afterRetire_eq_running_iff (cycle s).run (cycle s).W.stat).1 h
  obtain ⟨-, hW⟩ := (RunStatus.afterRetire_eq_running_iff s.run s.W.stat).1 h1
  have hM' : (mStat s.M s).isExc = false := hM
  simp [excMW, hM', hW]

/-- A ret in flight holds F (R163). -/
theorem cycle_F_of_ret {s : State} (h : retInFlight s = true) : (cycle s).F = s.F := by
  rw [cycle_F, modeF_of_ret h, commit_STALL]

/-- A ret in D, with nothing that squashes or stalls it: it enters E, and behind it F is held and D empty. -/
theorem cycle_of_ret_in_D {s : State} (hret : s.D.icode = .IRET) (hl : loaduse s = false) (hm : mispredict s = false) :
    (cycle s).F = s.F ∧ (cycle s).D = LatchD.bubble ∧ (cycle s).E.icode = .IRET := by
  have hflight : retInFlight s = true := by simp [retInFlight, hret]
  refine ⟨cycle_F_of_ret hflight, cycle_D_of_ret hflight hl, ?_⟩
  rw [cycle_E, modeE_of_noSquash hm hl]
  exact hret

/-- A ret in E, with nothing behind it: it enters M, and behind it F is held and D and E are empty. -/
theorem cycle_of_ret_in_E {s : State} (hret : s.E.icode = .IRET) (hD : s.D = LatchD.bubble) (hexc : excMW s = false) :
    (cycle s).F = s.F ∧ (cycle s).D = LatchD.bubble ∧ (cycle s).E = LatchE.bubble ∧ (cycle s).M.icode = .IRET := by
  have hflight : retInFlight s = true := by simp [retInFlight, hret]
  have hl : loaduse s = false := loaduse_eq_false_of_icode (by simp [hret]) (by simp [hret])
  refine ⟨cycle_F_of_ret hflight, cycle_D_of_ret hflight hl, cycle_E_of_D_bubble hD, ?_⟩
  rw [cycle_M_of_noExc hexc]
  exact hret

/-- A ret in M, with nothing behind it: it enters W, behind it F is held and D is empty, and Fetch reads the address it
has popped (R102). -/
theorem cycle_of_ret_in_M {s : State} (hret : s.M.icode = .IRET) (hE : s.E = LatchE.bubble) :
    (cycle s).F = s.F ∧ (cycle s).D = LatchD.bubble ∧ (cycle s).W.icode = .IRET ∧
      fetchPC (cycle s) = (cycle s).W.valM := by
  have hflight : retInFlight s = true := by simp [retInFlight, hret]
  have hnoJump : ¬((cycle s).M.icode = .IJXX ∧ (cycle s).M.Cnd = false) := by
    rw [cycle_M_of_E_bubble hE]
    decide
  exact ⟨cycle_F_of_ret hflight, cycle_D_of_ret hflight (loaduse_eq_false_of_E_bubble hE), hret,
    (if_neg hnoJump).trans (if_pos hret)⟩

/-- Settles O39: the ret moves on from D, E and M, one cycle each; that the run goes on for three cycles keeps an
exceptional status from squashing it in E (`excMW_eq_false_of_running`). -/
theorem returnCostsThreeCycles : Obligations.ReturnCostsThreeCycles := by
  intro s hrun hret hl hm hrun3
  obtain ⟨-, h3⟩ := running_of_cycles_succ_running hrun3
  obtain ⟨hrun1, h2⟩ := running_of_cycles_succ_running h3
  obtain ⟨hrun2, hgoes⟩ := running_of_cycles_succ_running h2
  have e1 : cycles 1 s = cycle s := cycles_succ_of_running hrun 0
  have e2 : cycles 2 s = cycle (cycle s) := by
    rw [cycles_succ_of_running hrun, cycles_succ_of_running hrun1]; rfl
  have e3 : cycles 3 s = cycle (cycle (cycle s)) := by
    rw [cycles_succ_of_running hrun, cycles_succ_of_running hrun1, cycles_succ_of_running hrun2]; rfl
  obtain ⟨hF1, hD1, hE1⟩ := cycle_of_ret_in_D hret hl hm
  obtain ⟨hF2, hD2, hE2, hM2⟩ := cycle_of_ret_in_E hE1 hD1 (excMW_eq_false_of_running hgoes)
  obtain ⟨hF3, hD3, hW3, hpc⟩ := cycle_of_ret_in_M hM2 hE2
  rw [e1, e2, e3]
  refine ⟨?held, hE1, hM2, hW3, hpc⟩
  case held =>
    simp only [List.forall_mem_cons, e1, e2, e3]
    exact ⟨⟨hF1, hD1⟩, ⟨hF2.trans hF1, hD2⟩, ⟨hF3.trans (hF2.trans hF1), hD3⟩, by simp⟩

end Sys2Proof.Machine
end

section
/-! PROOFS. An effect that changes registers, RUN and the pc only, and the register moves, whose effects are such
(46_moves.md R175 to R184). -/

namespace Sys2Proof.Machine

/-- What is left unchanged by an effect on registers, RUN and the pc: CC, memory and the latches behind F. -/
theorem frame_of_regs_run_F {s t : State} {r : RegFile} {run : RunStatus} {f : LatchF}
    (h : t = { s with regs := r, run := run, F := f }) :
    t.cc = s.cc ∧ (∀ x, t.mem.read x = s.mem.read x) ∧ latchesKept s t := by
  subst h
  exact ⟨rfl, fun _ => rfl, rfl, rfl, rfl, rfl, rfl⟩

/-- The result and the frame of an instruction that writes registers and the pc, the register file it leaves being known
by its reads. -/
theorem result_of_regs_pc {i : Instr} {s : State} {r : RegFile} {p : Word} {value : RegId → Word}
    (hexec : exec i s = .next { s with regs := r, F := { predPC := p } }) (hread : ∀ id, RegFile.read r id = value id) :
    ∃ t, exec i s = .next t ∧ (∀ id, t.readReg id = value id) ∧
      t.pc = p ∧ t.cc = s.cc ∧ (∀ x, t.mem.read x = s.mem.read x) ∧ t.run = s.run ∧ latchesKept s t := by
  obtain ⟨hcc, hmem, hlatches⟩ := frame_of_regs_run_F (s := s) (r := r) (run := s.run) (f := { predPC := p }) rfl
  exact ⟨_, hexec, hread, rfl, hcc, hmem, rfl, hlatches⟩

/-- Settles O11: a write of `rB`, read back by `State.readReg_writeReg`. -/
theorem rrmovqResult : Obligations.RrmovqResult := fun s rA rB =>
  result_of_regs_pc rfl fun id => State.readReg_writeReg s rB id (s.readReg rA)

/-- Settles O13: as for O11, with the constant for the value. -/
theorem irmovqResult : Obligations.IrmovqResult := fun s _ rB v =>
  result_of_regs_pc rfl fun id => State.readReg_writeReg s rB id v

/-- The result and the frame of a conditional move whose function code tests `c`. -/
theorem result_of_moveIf {i : Instr} {s : State} {fn : Nibble} {rA rB : RegId} {p : Word} {c : Bool}
    (hc : Machine.cond s.cc fn = c) (hexec : exec i s = .next (moveIf fn rA rB p s)) :
    ∃ t, exec i s = .next t ∧
      (∀ id, t.readReg id = if c = true ∧ id = rB ∧ rB ≠ RNONE then s.readReg rA else s.readReg id) ∧
      t.pc = p ∧ t.cc = s.cc ∧ (∀ x, t.mem.read x = s.mem.read x) ∧ t.run = s.run ∧ latchesKept s t := by
  subst hc
  exact result_of_regs_pc (hexec.trans (congrArg _ (moveIf_frame fn rA rB p s))) (moveIf_readReg fn rA rB p s)

/-- Settles O12: each of the six is a `moveIf` with its own function code, whose test is a row of `conditionTests`. -/
theorem conditionalMoveResults : Obligations.ConditionalMoveResults := by
  intro s rA rB
  obtain ⟨-, hle, hl, he, hne, hge, hg⟩ := conditionTests.1 s.cc
  simp only [List.forall_mem_cons]
  exact ⟨result_of_moveIf hle rfl, result_of_moveIf hl rfl, result_of_moveIf he rfl, result_of_moveIf hne rfl,
    result_of_moveIf hge rfl, result_of_moveIf hg rfl, List.forall_mem_nil _⟩

end Sys2Proof.Machine
end

section
/-! PROOFS. A data access outside memory, in the sequential effects of the six instructions that make one (46_moves.md
R175 item 4, 60_exceptions.md R211). -/

namespace Sys2Proof.Machine

/-! ### The access fails (R55, R175 item 4) -/

/-- A store outside memory only stops the run. -/
theorem State.store_of_invalid {s : State} {a : Word} (h : s.memCapacity < a.toNat + 8) (v : Word) :
    s.store a v = { s with run := .stopped .ADR } := by
  rcases s.store_cases a v with ⟨hvalid, _⟩ | ⟨_, hstore⟩
  · omega
  · exact hstore

/-- A load outside memory has status ADR. -/
theorem State.loadStat_of_invalid {s : State} {a : Word} (h : s.memCapacity < a.toNat + 8) : s.loadStat a = .ADR := by
  rw [State.loadStat, State.memRead_of_invalid h]
  rfl

/-! ### The whole effect of each instruction then: registers, RUN and the pc, as the model has it (log entry 8) -/

section effect

variable {s : State}

/-- call: %rsp still goes down (R197). -/
theorem exec_call_of_invalid (h : s.memCapacity < s.pushAddr.toNat + 8) (v : Word) :
    exec (.call v) s = .next
      { s with regs := s.regs.write RRSP s.pushAddr, run := .stopped .ADR, F := { predPC := v } } := by
  rw [exec, execCall, State.store_of_invalid h]
  rfl

/-- pushq: %rsp still goes down (R200). -/
theorem exec_pushq_of_invalid (h : s.memCapacity < s.pushAddr.toNat + 8) (rA unused : RegId) :
    exec (.pushq rA unused) s = .next
      { s with regs := s.regs.write RRSP s.pushAddr, run := .stopped .ADR, F := { predPC := s.pc + 2 } } := by
  rw [exec, execPushq, State.store_of_invalid h]
  rfl

/-- ret: %rsp still goes up, and the return address read is 0 (R198). -/
theorem exec_ret_of_invalid (h : s.memCapacity < s.popAddr.toNat + 8) :
    exec .ret s = .next
      { s with regs := s.regs.write RRSP (s.popAddr + 8), run := .stopped .ADR, F := { predPC := 0 } } := by
  rw [exec, execRet, State.memRead_of_invalid h, State.loadStat_of_invalid h]
  rfl

/-- popq: %rsp still goes up, and then the destination gets 0 (R201). -/
theorem exec_popq_of_invalid (h : s.memCapacity < s.popAddr.toNat + 8) (rA unused : RegId) :
    exec (.popq rA unused) s = .next
      { s with
        regs := (s.regs.write RRSP (s.popAddr + 8)).write rA 0
        run := .stopped .ADR
        F := { predPC := s.pc + 2 } } := by
  rw [exec, execPopq, State.memRead_of_invalid h, State.loadStat_of_invalid h]
  rfl

/-- rmmovq: no register is written (R202). -/
theorem exec_rmmovq_of_invalid {rB : RegId} {v : Word} (h : s.memCapacity < (s.effectiveAddr rB v).toNat + 8)
    (rA : RegId) :
    exec (.rmmovq rA rB v) s = .next { s with run := .stopped .ADR, F := { predPC := s.pc + 10 } } := by
  rw [exec, execRmmovq, State.store_of_invalid h]
  rfl

/-- mrmovq: the destination gets 0 (R203). -/
theorem exec_mrmovq_of_invalid {rB : RegId} {v : Word} (h : s.memCapacity < (s.effectiveAddr rB v).toNat + 8)
    (rA : RegId) :
    exec (.mrmovq rA rB v) s = .next
      { s with regs := s.regs.write rA 0, run := .stopped .ADR, F := { predPC := s.pc + 10 } } := by
  rw [exec, execMrmovq, State.memRead_of_invalid h, State.loadStat_of_invalid h]
  rfl

end effect

/-- The result and the frame of an instruction that writes registers and the pc and stops the run with ADR, the register
file it leaves being known by its reads. -/
theorem result_of_ADR {i : Instr} {s : State} {r : RegFile} {f : LatchF} {value : RegId → Word}
    (hexec : exec i s = .next { s with regs := r, run := .stopped .ADR, F := f })
    (hread : ∀ id, RegFile.read r id = value id) :
    ∃ t, exec i s = .next t ∧ t.run = .stopped .ADR ∧ (∀ id, t.readReg id = value id) ∧
      t.cc = s.cc ∧ (∀ x, t.mem.read x = s.mem.read x) ∧ latchesKept s t :=
  ⟨_, hexec, rfl, hread, frame_of_regs_run_F rfl⟩

/-- Every read after a write of %rsp (R15). -/
theorem State.readReg_writeReg_RRSP (s : State) (id : RegId) (v : Word) :
    (s.writeReg RRSP v).readReg id = if id = RRSP then v else s.readReg id :=
  registerReadWrite.2 s.regs RRSP id v (by decide)

/-- Every read after a pop: the word popped stays where its destination is %rsp (R201). -/
theorem State.readReg_popped (s : State) (sp v : Word) (dst id : RegId) :
    ((s.writeReg RRSP sp).writeReg dst v).readReg id =
      if id = dst ∧ dst ≠ RNONE then v else if id = RRSP then sp else s.readReg id := by
  rw [State.readReg_writeReg, State.readReg_writeReg_RRSP]

/-- Settles O23: the whole effect of each of the six (`exec_call_of_invalid` to `exec_mrmovq_of_invalid`), its register
file read back. ret, like a store, writes no loaded value: in the statement its destination is RNONE, to which a write
changes nothing. -/
theorem dataAddressErrors : Obligations.DataAddressErrors := by
  simp only [Obligations.DataAddressErrors, List.forall_mem_cons]
  refine ⟨fun s v rA unused h => ?push, fun s rA unused h => ?pop, fun s rA rB v h => ?displaced⟩
  case push =>
    have hread (id : RegId) := s.readReg_writeReg_RRSP id s.pushAddr
    exact ⟨result_of_ADR (exec_call_of_invalid h v) hread, result_of_ADR (exec_pushq_of_invalid h rA unused) hread,
      List.forall_mem_nil _⟩
  case pop =>
    have hread := s.readReg_popped (s.popAddr + 8) 0
    exact ⟨result_of_ADR (exec_ret_of_invalid h) (hread RNONE),
      result_of_ADR (exec_popq_of_invalid h rA unused) (hread rA), List.forall_mem_nil _⟩
  case displaced =>
    have hread (dst id : RegId) := s.readReg_writeReg dst id 0
    exact ⟨result_of_ADR (exec_rmmovq_of_invalid h rA) (hread RNONE),
      result_of_ADR (exec_mrmovq_of_invalid h rA) (hread rA), List.forall_mem_nil _⟩

end Sys2Proof.Machine
end

section
/-! PROOFS. A step of the straight-line machine, by what it fetches (46_moves.md R175). -/

namespace Sys2Proof.Machine

/-- Settles O25: what Fetch reads there is the instruction (`fetchInstr_of_instrAt`). -/
theorem straightLineRunsDecoded : Obligations.StraightLineRunsDecoded := by
  intro s i hrun hat
  obtain ⟨rest, hfetch⟩ := fetchInstr_of_instrAt hat
  simp only [straightLineStep, hrun, hfetch]

/-- Settles O26: each case is one of what Fetch reads, and the step then retires the status of the error and does
nothing else. -/
theorem straightLineFetchErrors : Obligations.StraightLineFetchErrors := by
  refine fun s hrun => ⟨fun h => ?outside, fun h hinv => ?invalid, fun i h hi hcut => ?cut⟩
  case outside =>
    simp only [straightLineStep, hrun, fetchInstr_of_outside h]
    rfl
  case invalid =>
    simp only [straightLineStep, hrun, fetchInstr_of_invalid h hinv]
    rfl
  case cut =>
    simp only [straightLineStep, hrun, fetchInstr_of_cut h hi hcut]
    rfl

end Sys2Proof.Machine
end

section
/-! PROOFS. The effect of the arithmetic instructions: the result, the three flags and the frame (47_arith.md R185 to
R189). -/

namespace Sys2Proof.Machine

/-- ZF and SF of a result, as the rules of the four instructions spell them (R185 to R188). -/
theorem newCC_eq (fn : Nibble) (a b : Word) :
    newCC fn a b =
      { ZF := decide (alu fn a b = 0), SF := (alu fn a b).getLsbD 63, OF := (newCC fn a b).OF } := by
  obtain ⟨hZF, hSF⟩ := arithmeticFlags.1 fn a b
  rw [← hSF, ← beq_eq_decide, ← hZF]

/-- The result and the frame of an OPq whose function computes `v` with overflow flag `o`. -/
theorem result_of_opq {i : Instr} {s : State} {fn : Nibble} {rA rB : RegId} {p v : Word} {o : Bool}
    (hv : alu fn (s.readReg rA) (s.readReg rB) = v) (ho : (newCC fn (s.readReg rA) (s.readReg rB)).OF = o)
    (hexec : exec i s = .next (opq fn rA rB p s)) :
    ∃ t, exec i s = .next t ∧
      (∀ id, t.readReg id = if id = rB ∧ rB ≠ RNONE then v else s.readReg id) ∧
      t.cc = { ZF := decide (v = 0), SF := v.getLsbD 63, OF := o } ∧
      t.pc = p ∧ (∀ x, t.mem.read x = s.mem.read x) ∧ t.run = s.run ∧ latchesKept s t := by
  subst hv ho
  rw [opq_eq] at hexec
  exact ⟨_, hexec, fun id => State.readReg_writeReg s rB id _, newCC_eq fn _ _, rfl, fun _ => rfl, rfl,
    rfl, rfl, rfl, rfl, rfl⟩

/-- Settles O14: each of the four is an `opq` with its own function code, whose overflow flag is a row of
`arithmeticFlags`. -/
theorem arithmeticResults : Obligations.ArithmeticResults := by
  rintro s rA rB a b rfl rfl
  obtain ⟨-, -, hand, hxor, hadd, hsub⟩ := arithmeticFlags.2 (s.readReg rA) (s.readReg rB)
  simp only [List.forall_mem_cons]
  exact ⟨result_of_opq (alu_ADD _ _) hadd rfl, result_of_opq (alu_SUB _ _) hsub rfl,
    result_of_opq (alu_AND _ _) hand rfl, result_of_opq (alu_XOR _ _) hxor rfl, List.forall_mem_nil _⟩

end Sys2Proof.Machine
end

section
/-! PROOFS. A run that stops has had the effects of the instructions older than the exceptional one, of that
instruction's own step, which changes neither the condition codes nor memory, and of no other (60_exceptions.md R211, R216). -/

namespace Sys2Proof.Machine

/-! ### The instruction that stops the run (R211) -/

/-- An exceptional status before the Memory stage comes with a code that neither sets the condition codes nor stores
(R107, R108). -/
theorem inert_of_statFits {st : Stat} {ic : Icode} (h : statFits st ic = true) (hexc : st.isExc = true) :
    setsCC ic = false ∧ isStore ic = false := by
  cases st with
  | BUB | AOK => simp [Stat.isExc, Stat.exc?] at hexc
  | HLT | ADR | INS => simp_all [statFits, setsCC, isStore]

/-- An access error is one of a load or a store whose address is invalid (R150). -/
theorem invalid_of_dmemError {m : LatchM} {a : State} (h : dmemError m a = true) :
    (isLoad m.icode = true ∨ isStore m.icode = true) ∧ a.memCapacity < (memAddr m).toNat + 8 := by
  by_cases hvalid : (memAddr m).toNat + 8 ≤ a.memCapacity
  · simp [dmemError, State.memRead_of_valid hvalid, State.memWrite_of_valid hvalid] at h
  · have hinvalid := Nat.not_le.1 hvalid
    rw [dmemError_of_invalid hinvalid, Bool.or_eq_true] at h
    exact ⟨h, hinvalid⟩

theorem setsCC_eq_false_of_access {ic : Icode} (h : isLoad ic = true ∨ isStore ic = true) : setsCC ic = false := by
  cases ic <;> simp_all [setsCC, isLoad, isStore]

/-- An instruction that stops the run changes neither the condition codes nor memory: it has entered with an exceptional
status, or its data access is invalid. -/
theorem finishD_of_stopping {d : LatchD} {a : State} (hslot : slotLegalD d) (ha : a.run = .running)
    (hstop : (finishD d a).run ≠ .running) : (finishD d a).cc = a.cc ∧ (finishD d a).mem = a.mem := by
  have hcc : setsCC d.icode = false → (finishD d a).cc = a.cc := fun h => by
    simp [finishD_eq, eCC, eInWith, h]
  have hexc : (mStat (mIn (eInWith a.readReg d) a.cc) a).isExc = true := by
    by_contra hno
    exact hstop ((RunStatus.afterRetire_eq_running_iff _ _).2 ⟨ha, Bool.eq_false_of_not_eq_true hno⟩)
  cases herror : dmemError (mIn (eInWith a.readReg d) a.cc) a with
  | true =>
    obtain ⟨haccess, hinvalid⟩ := invalid_of_dmemError herror
    exact ⟨hcc (setsCC_eq_false_of_access haccess), mMem_of_invalid hinvalid⟩
  | false =>
    rw [mStat, herror, if_neg Bool.false_ne_true] at hexc
    obtain ⟨hsets, hstore⟩ := inert_of_statFits hslot.2 hexc
    exact ⟨hcc hsets, mMem_of_not_isStore (m := mIn (eInWith a.readReg d) a.cc) hstore a⟩

/-! ### The last step of a straight-line run -/

/-- The step of the straight-line machine that stops it changes neither the condition codes nor memory. -/
theorem straightLineStep_of_stopping {a u : State} (ha : a.run = .running) (hstep : straightLineStep a = .next u)
    (hstop : u.run ≠ .running) : u.cc = a.cc ∧ u.mem = a.mem := by
  rw [straightLineStep_eq_finishD ha] at hstep
  cases hstep
  exact finishD_of_stopping (a := a.setPC _) (slotLegalD_fetchSlot a a.pc) ha hstop

/-- A straight-line run that stops has a last step, made from a running state. -/
theorem exists_last_step {s : State} {e : Exc} (hs : s.run = .running) (m : Nat)
    (hstop : (straightLineRun m s).run = .stopped e) :
    ∃ k, (straightLineRun k s).run = .running ∧
      straightLineStep (straightLineRun k s) = .next (straightLineRun m s) := by
  induction m generalizing s with
  | zero => exact absurd (hs.symm.trans hstop) (by simp)
  | succ m ih =>
    have hstep := straightLineStep_eq_finishD hs
    generalize finishD _ _ = u at hstep
    rw [straightLineRun_succ hstep] at hstop ⊢
    cases hu : u.run with
    | running =>
      obtain ⟨k, hk⟩ := ih hu hstop
      exact ⟨k + 1, by rwa [straightLineRun_succ hstep]⟩
    | stopped e' => exact ⟨0, hs, by rwa [straightLineRun_of_stopped hu]⟩

/-! ### The pipeline's run beside it (R216) -/

/-- A run of the pipeline that stops ends as the straight-line machine does from its architectural state, registers,
condition codes and memory alike. -/
theorem straightLineRun_of_stopped_cycles {s : State} {n : Nat} {e : Exc} (hslots : slotsLegal s) (hflow : flowLegal s)
    (hfresh : ∀ k, k < n → issues (cycles k s) → fetchFresh (cycles k s)) (hstop : (cycles n s).run = .stopped e) :
    ∃ m, (straightLineRun m (settle s)).run = .stopped e ∧
      (cycles n s).regs = (straightLineRun m (settle s)).regs ∧
      (cycles n s).cc = (straightLineRun m (settle s)).cc ∧
      (cycles n s).mem = (straightLineRun m (settle s)).mem := by
  obtain ⟨m, hm⟩ := straightLineRun_settle_of_cycles hslots hflow n hfresh
  rw [settle_of_stopped hstop] at hm
  refine ⟨m, ?run, ?regs, ?cc, ?mem⟩
  case run => rw [← State.atStop_run, hm]; exact hstop
  case regs => rw [← State.atStop_regs (straightLineRun m _), hm]; rfl
  case cc => rw [← State.atStop_cc (straightLineRun m _), hm]; rfl
  case mem => rw [← State.atStop_mem (straightLineRun m _), hm]; rfl

/-- Settles O51: the straight-line machine stops in the pipeline's final state (`straightLineRun_of_stopped_cycles`),
and its last step is the exceptional instruction's (`exists_last_step`, `straightLineStep_of_stopping`). -/
theorem exceptionsArePrecise : Obligations.ExceptionsArePrecise := by
  refine ⟨fun capacity image n e hfresh hstop => ?boot, fun s n e _ hslots hflow => ?legal⟩
  case boot =>
    obtain ⟨m, hm, hresult⟩ := straightLineRun_of_stopped_cycles (slotsLegal_boot capacity image)
      (flowLegal_boot capacity image) hfresh hstop
    rw [settle_boot] at hm hresult
    obtain ⟨k, holder, hstep⟩ := exists_last_step (s := State.boot capacity image) rfl m hm
    obtain ⟨hcc, hmem⟩ := straightLineStep_of_stopping holder hstep (by simp [hm])
    exact ⟨k, _, _, rfl, holder, hstep, hm, hcc, hmem, hresult⟩
  case legal => exact straightLineRun_of_stopped_cycles hslots hflow

end Sys2Proof.Machine
end

section
/-! PROOFS. One instruction through an empty pipeline: each of its cycles moves it one stage on, and what it leaves
behind it, stage by stage, is its sequential effect (70_reset_and_hazards.md R231, R242). -/

namespace Sys2Proof.Machine

/-! ### What a cycle writes, as the completion of the instruction that has been in the stage (R94) -/

theorem AgreeOffPC.regs_eq {a b : State} (h : AgreeOffPC a b) : a.regs = b.regs := by
  rw [h]
  rfl

theorem AgreeOffPC.mem_eq {a b : State} (h : AgreeOffPC a b) : a.mem = b.mem := by
  rw [h]
  rfl

theorem AgreeOffPC.trans {a b c : State} (hab : AgreeOffPC a b) (hbc : AgreeOffPC b c) : AgreeOffPC a c := by
  rw [hbc] at hab
  exact hab

/-- The Execute stage's condition codes. -/
theorem cycle_cc_eq_afterE_cc {s : State} (hexc : excMW s = false) : (cycle s).cc = (afterE s).cc := by
  rw [cycle_cc_of_noExc hexc]
  rfl

/-- The Memory stage's memory. -/
theorem cycle_mem_eq_afterM_mem (s : State) : (cycle s).mem = (afterM s).mem := by
  rw [afterM_eq]
  rfl

/-- The registers that the Writeback stage writes one cycle after the Memory stage. -/
theorem cycle_cycle_regs (s : State) : (cycle (cycle s)).regs = (afterM s).regs :=
  (agreeOffPC_afterW_cycle s).regs_eq

/-- The run status that the Writeback stage leaves one cycle after the Memory stage. -/
theorem cycle_cycle_run (s : State) : (cycle (cycle s)).run = (afterM s).run := afterW_cycle_run s

/-! ### Bubbles along the cycles -/

theorem cycle_W_of_M_bubble {s : State} (h : s.M = LatchM.bubble) : (cycle s).W = LatchW.bubble := by
  rw [cycle_W, h, wIn_bubble]

theorem cycle_run_of_W_bubble {s : State} (h : s.W = LatchW.bubble) : (cycle s).run = s.run := by
  rw [cycle_run, h]
  rfl

theorem excMW_of_bubbles {s : State} (hM : s.M = LatchM.bubble) (hW : s.W = LatchW.bubble) : excMW s = false := by
  rw [excMW, hM, hW, mStat_bubble]
  rfl

/-- Fetch reads at the predicted address where M and W are empty (R102). -/
theorem fetchPC_of_bubbles {s : State} (hM : s.M = LatchM.bubble) (hW : s.W = LatchW.bubble) : fetchPC s = s.pc := by
  rw [fetchPC, hM, hW]
  rfl

/-- Fetch reads at the pc that W leaves where M is empty (R102). -/
theorem afterW_pc_of_M_bubble {s : State} (h : s.M = LatchM.bubble) : (afterW s).pc = fetchPC s := by
  have hret : s.M.icode ≠ .IRET := by rw [h]; decide
  have hM : afterM s = afterW s := by rw [afterM, h, finishM_bubble]
  rw [← hM, afterM_pc hret]

/-! ### A jump in D that will not be taken -/

/-- It enters E and is mispredicted there (R159). -/
theorem Advancing.mispredict_cycle_of_wrongPath {s : State} (h : Advancing s) (hpath : wrongPath s = true) :
    mispredict (cycle s) = true := by
  by_contra hm
  rw [Bool.not_eq_true, mispredict_eq_false_iff, h.cycle_E, cycle_cc_of_noExc h.excMW_false] at hm
  rw [(wrongPath_eq_false_iff s _).2 hm] at hpath
  exact absurd hpath (by decide)

/-- It decides the pc alone. -/
theorem Advancing.afterE_cycle_of_wrongPath {s : State} (h : Advancing s) (hpath : wrongPath s = true) :
    afterE (cycle s) = afterD s := by
  have hm := (mispredict_iff (cycle s)).1 (h.mispredict_cycle_of_wrongPath hpath)
  rw [h.cycle_E] at hm
  rw [h.afterE_cycle, (agreeOffPC_afterM_cycle h.excMW_false).finishE_eq (.inr hm)]
  rfl

/-! ### The instruction in D, nothing older being in flight -/

/-- The pipeline runs, with an instruction in D and nothing older in flight. -/
structure OldestInD (s : State) : Prop where
  running : s.run = .running
  slot : slotLegalD s.D
  E_bubble : s.E = LatchE.bubble
  M_bubble : s.M = LatchM.bubble
  W_bubble : s.W = LatchW.bubble

namespace OldestInD

variable {s : State} (h : OldestInD s)
include h

/-- The state the instruction completes on is the state itself: no older instruction changes it. -/
theorem afterE_eq : afterE s = s.drained := by
  rw [afterE, afterM, afterW, h.E_bubble, h.M_bubble, h.W_bubble, finishW_bubble, finishM_bubble, finishE_bubble]

theorem advancing : Advancing s where
  running := h.running
  slotsLegal := by
    rw [slotsLegal_iff, h.E_bubble, h.M_bubble, h.W_bubble]
    exact ⟨h.slot, slotLegalE_bubble, slotLegalM_bubble, slotLegalW_bubble⟩
  excMW_false := excMW_of_bubbles h.M_bubble h.W_bubble
  mispredict_false := mispredict_of_E_bubble h.E_bubble
  loaduse_false := loaduse_eq_false_of_E_bubble h.E_bubble
  afterE_running := by rw [h.afterE_eq]; exact h.running

theorem M_bubble_cycle : (cycle s).M = LatchM.bubble := cycle_M_of_E_bubble h.E_bubble

theorem W_bubble_cycle : (cycle s).W = LatchW.bubble := cycle_W_of_M_bubble h.M_bubble

theorem W_bubble_cycle_cycle : (cycle (cycle s)).W = LatchW.bubble := cycle_W_of_M_bubble h.M_bubble_cycle

theorem excMW_cycle : excMW (cycle s) = false := excMW_of_bubbles h.M_bubble_cycle h.W_bubble_cycle

/-- The run goes on until the instruction is in W. -/
theorem running_cycle :
    (cycle s).run = .running ∧ (cycle (cycle s)).run = .running ∧ (cycle (cycle (cycle s))).run = .running := by
  have h1 := (cycle_run_of_W_bubble h.W_bubble).trans h.running
  have h2 := (cycle_run_of_W_bubble h.W_bubble_cycle).trans h1
  exact ⟨h1, h2, (cycle_run_of_W_bubble h.W_bubble_cycle_cycle).trans h2⟩

theorem cycles_eq :
    cycles 1 s = cycle s ∧ cycles 2 s = cycle (cycle s) ∧ cycles 3 s = cycle (cycle (cycle s)) ∧
      cycles 4 s = cycle (cycle (cycle (cycle s))) := by
  obtain ⟨h1, h2, h3⟩ := h.running_cycle
  simp only [cycles, State.andThen_of_running h.running, State.andThen_of_running h1, State.andThen_of_running h2,
    State.andThen_of_running h3, and_self]

/-- The instruction, in M after two cycles, leaves there what it leaves from D, but for the pc. -/
theorem agreeOffPC_afterM_cycle_cycle : AgreeOffPC (afterM (cycle (cycle s))) (afterD s) :=
  (agreeOffPC_afterM_cycle h.excMW_cycle).trans h.advancing.agreeOffPC_afterE_cycle

theorem cc_eq : (cycle (cycle s)).cc = (afterD s).cc :=
  (cycle_cc_eq_afterE_cc h.excMW_cycle).trans h.advancing.agreeOffPC_afterE_cycle.cc_eq

theorem mem_eq : (cycle (cycle (cycle s))).mem = (afterD s).mem :=
  (cycle_mem_eq_afterM_mem _).trans h.agreeOffPC_afterM_cycle_cycle.mem_eq

theorem regs_eq : (cycle (cycle (cycle (cycle s)))).regs = (afterD s).regs :=
  (cycle_cycle_regs _).trans h.agreeOffPC_afterM_cycle_cycle.regs_eq

theorem run_eq : (cycle (cycle (cycle (cycle s)))).run = (afterD s).run :=
  (cycle_cycle_run _).trans h.agreeOffPC_afterM_cycle_cycle.run_eq

/-- Fetch behind it is on the wrong path exactly behind a jump that its own condition codes do not take (R110). -/
theorem wrongPath_eq_true_iff : wrongPath s = true ↔ s.D.icode = .IJXX ∧ Machine.cond s.cc s.D.ifun = false := by
  simp [wrongPath, h.E_bubble]

/-- An instruction that does not redirect Fetch leaves the predicted pc, where Fetch reads in the next cycle. -/
theorem fetchPC_eq (hret : s.D.icode ≠ .IRET) (hpath : wrongPath s = false) : fetchPC s = (afterD s).pc := by
  have hj := (wrongPath_eq_false_iff s (afterE s).readReg).1 hpath
  calc fetchPC s = s.pc := fetchPC_of_bubbles h.M_bubble h.W_bubble
    _ = (afterE s).pc := by rw [h.afterE_eq]; rfl
    _ = (afterD s).pc := (finishE_pc (e := eInWith (afterE s).readReg s.D) hret hj).symm

/-- Behind a jump not taken Fetch reads at its fall-through address two cycles later (R102, R168). -/
theorem fetchPC_of_wrongPath (hpath : wrongPath s = true) : fetchPC (cycle (cycle s)) = (afterD s).pc := by
  have hm := h.advancing.mispredict_cycle_of_wrongPath hpath
  obtain ⟨hj, -⟩ := (mispredict_iff (cycle s)).1 hm
  have hjump : (cycle (cycle s)).M.icode ≠ .IRET := by
    rw [cycle_M_of_noExc h.excMW_cycle]
    exact fun hret => absurd (hj.symm.trans hret) (by decide)
  calc fetchPC (cycle (cycle s)) = (afterM (cycle (cycle s))).pc := (afterM_pc hjump).symm
    _ = (afterE (cycle s)).pc := by rw [afterM_cycle_of_redirect h.excMW_cycle (.inr hm)]
    _ = (afterD s).pc := by rw [h.advancing.afterE_cycle_of_wrongPath hpath]

/-- Behind a ret Fetch reads at the address it pops three cycles later (R102, R171). -/
theorem fetchPC_of_ret (hret : s.D.icode = .IRET) : fetchPC (cycle (cycle (cycle s))) = (afterD s).pc := by
  have hadv := h.advancing
  obtain ⟨-, hD1, hE1⟩ := cycle_of_ret_in_D hret hadv.loaduse_false hadv.mispredict_false
  obtain ⟨-, -, hE2, hM2⟩ := cycle_of_ret_in_E hE1 hD1 h.excMW_cycle
  calc fetchPC (cycle (cycle (cycle s)))
    _ = (afterW (cycle (cycle (cycle s)))).pc := (afterW_pc_of_M_bubble (cycle_M_of_E_bubble hE2)).symm
    _ = (afterM (cycle (cycle s))).pc := afterW_cycle_pc_of_ret hM2
    _ = (afterE (cycle s)).pc := by rw [afterM_cycle_of_redirect h.excMW_cycle (.inl hE1)]
    _ = (afterD s).pc := by rw [hadv.afterE_cycle_of_ret (by simp [retInFlight, hret])]

end OldestInD

/-! ### From the fetch on -/

section empty

variable {s : State} (h : pipelineEmpty s)
include h

theorem fetchPC_of_empty : fetchPC s = s.pc := by
  obtain ⟨-, -, hM, hW⟩ := h
  exact fetchPC_of_bubbles hM hW

/-- The cycle that fetches into an empty pipeline writes D and F, and nothing else. -/
theorem cycle_of_empty : cycle s = { s with D := dIn s, F := fIn s } := by
  obtain ⟨regs, cc, mem, run, F, D, E, M, W, capacity⟩ := s
  obtain ⟨rfl, rfl, rfl, rfl⟩ := h
  rfl

theorem oldestInD_cycle_of_empty (hs : s.run = .running) : OldestInD (cycle s) := by
  rw [cycle_of_empty h]
  obtain ⟨-, hE, hM, hW⟩ := h
  exact ⟨hs, slotLegalD_fetchSlot s _, hE, hM, hW⟩

theorem cycle_D_of_empty {i : Instr} (hat : instrAt s s.pc i) : (cycle s).D = instrSlot i s.pc := by
  rw [cycle_of_empty h, dIn, fetchPC_of_empty h, fetchSlot_of_instrAt hat]

/-- What the instruction fetched into an empty pipeline leaves is its sequential effect. -/
theorem exec_eq_afterD_of_empty (hs : s.run = .running) {i : Instr} (hat : instrAt s s.pc i) :
    exec i s = .next (afterD (cycle s)) := by
  have hpc : (fIn s).predPC = predictPC (instrSlot i s.pc) s.pc := by
    rw [fIn, dIn, fetchPC_of_empty h, fetchSlot_of_instrAt hat]
  have hstate : (cycle s).drained = s.setPC (fIn s).predPC := by
    rw [cycle_of_empty h]
    obtain ⟨hD, hE, hM, hW⟩ := h
    rw [State.drained, State.setPC, ← hD, ← hE, ← hM, ← hW]
  rw [afterD, (oldestInD_cycle_of_empty h hs).afterE_eq, hstate, hpc, cycle_D_of_empty h hat]
  exact exec_eq_finishD i s

end empty

/-- Settles O53: past the fetch the instruction is in D with nothing older in flight (`oldestInD_cycle_of_empty`), and
what its stages leave from there on is its sequential effect (`exec_eq_afterD_of_empty`). -/
theorem emptyPipelineRunsExec : Obligations.EmptyPipelineRunsExec := by
  intro s i hs hempty hat
  have h := oldestInD_cycle_of_empty hempty hs
  have hD := cycle_D_of_empty hempty hat
  have hcc : (cycle s).cc = s.cc := by rw [cycle_of_empty hempty]
  have hpath : wrongPath (cycle s) = true ↔ i.icode = .IJXX ∧ Machine.cond s.cc i.ifun = false := by
    rw [h.wrongPath_eq_true_iff, hD, hcc]
    rfl
  have hret : (cycle s).D.icode = i.icode := by rw [hD]; rfl
  refine ⟨afterD (cycle s), exec_eq_afterD_of_empty hempty hs hat, ?_⟩
  obtain ⟨-, h2, h3, h4⟩ := h.cycles_eq
  simp only [cycles_succ_of_running hs, h2, h3, h4]
  refine ⟨h.cc_eq, h.mem_eq, h.regs_eq, h.run_eq, fun hr hj => ?next, fun hj hc => ?jump, fun hr => ?ret⟩
  case next => exact h.fetchPC_eq (hret ▸ hr) (Bool.eq_false_of_not_eq_true fun hp => hj (hpath.1 hp))
  case jump => exact h.fetchPC_of_wrongPath (hpath.2 ⟨hj, hc⟩)
  case ret => exact h.fetchPC_of_ret (hret.trans hr)

end Sys2Proof.Machine
end

section
/-! PROOFS. The invariants after a boot, and the run of a halt alone (70_reset_and_hazards.md R227 to R233, R243). -/

namespace Sys2Proof.Machine

/-- Settles O45: after a boot the capacity and the image are as given and every latch holds a bubble (`slotsLegal_boot`,
`flowLegal_boot`); `State.reset` is such a boot. -/
theorem resetLegal : Obligations.ResetLegal := by
  have hboot : ∀ (capacity : Nat) (image : Memory), 1 ≤ capacity → capacity ≤ 2 ^ 64 → image.wf →
      (∀ c ∈ image, c.1 < capacity) →
      capacityLegal (State.boot capacity image) ∧ memoryLegal (State.boot capacity image) ∧
      slotsLegal (State.boot capacity image) ∧ flowLegal (State.boot capacity image) :=
    fun capacity image hpos hmax hwf hbound =>
      ⟨⟨hpos, hmax⟩, ⟨hwf, hbound⟩, slotsLegal_boot capacity image, flowLegal_boot capacity image⟩
  exact ⟨hboot Config.memCapacity [] (by decide) (by decide) Memory.wf_nil (List.forall_mem_nil _), hboot⟩

/-- A run that goes on after `n` cycles was going on after fewer. -/
theorem running_of_le {s : State} {k n : Nat} (h : k ≤ n) (hn : (cycles n s).run = .running) :
    (cycles k s).run = .running := by
  obtain ⟨j, rfl⟩ := Nat.exists_eq_add_of_le h
  cases hk : (cycles k s).run with
  | running => rfl
  | stopped e =>
    rw [cycles_add, cycles_of_stopped hk, hk] at hn
    exact absurd hn (by simp)

/-- An instruction fetched into an empty pipeline does not stop the run before its fifth cycle (R231). -/
theorem running_of_empty {s : State} (hs : s.run = .running) (hempty : pipelineEmpty s) {k : Nat} (hk : k < 5) :
    (cycles k s).run = .running := by
  have h := oldestInD_cycle_of_empty hempty hs
  obtain ⟨-, -, h3⟩ := h.running_cycle
  obtain ⟨-, -, e3, -⟩ := h.cycles_eq
  refine running_of_le (Nat.le_of_lt_succ hk) ?_
  rwa [cycles_succ_of_running hs, e3]

/-- An empty image begins with a halt: every byte is 0 (R232). -/
theorem instrAt_boot_nil {capacity : Nat} (h : 1 ≤ capacity) : instrAt (State.boot capacity []) 0 .halt :=
  ⟨h, encode_halt.symm⟩

/-- Settles O57: a halt goes through the empty pipeline (`emptyPipelineRunsExec`), which runs on until the fifth cycle
(`running_of_empty`); the driver counts those cycles (`driveFrom_cases`). -/
theorem haltAloneTakesFiveCycles : Obligations.HaltAloneTakesFiveCycles := by
  intro capacity hpos
  have hempty : pipelineEmpty (State.boot capacity []) := ⟨rfl, rfl, rfl, rfl⟩
  have hrunning {k : Nat} (hk : k < 5) := running_of_empty (s := State.boot capacity []) rfl hempty hk
  obtain ⟨u, hexec, -, -, hregs, hrun, -⟩ :=
    emptyPipelineRunsExec (State.boot capacity []) .halt rfl hempty (instrAt_boot_nil hpos)
  cases hexec
  have hstopped {k : Nat} {e : Exc} (hk : (cycles k (State.boot capacity [])).run = .stopped e) : 5 ≤ k := by
    by_contra hlt
    exact absurd ((hrunning (Nat.not_le.1 hlt)).symm.trans hk) (by simp)
  refine ⟨(cycles 5 (State.boot capacity [])).result .HLT 5, ?result, rfl, rfl, fun id => ?registers,
    fun limit hlimit => ?cutOff⟩
  case result =>
    rcases driveFrom_cases 5 0 (State.boot capacity []) with ⟨k, e, hk, hstop, -, hdrive⟩ | ⟨hgoes, -⟩
    · obtain rfl : k = 5 := le_antisymm hk (hstopped hstop)
      obtain rfl : Exc.HLT = e := RunStatus.stopped.inj (hrun.symm.trans hstop)
      exact hdrive
    · exact absurd ((hgoes 5 le_rfl).symm.trans hrun) (by simp)
  case registers =>
    show RegFile.read (cycles 5 (State.boot capacity [])).regs id = 0
    rw [hregs]
    exact RegFile.read_replicate_zero id
  case cutOff =>
    rcases driveFrom_cases limit 0 (State.boot capacity []) with ⟨k, e, hk, hstop, -, -⟩ | ⟨-, hnone⟩
    · exact absurd (hstopped hstop) (by omega)
    · exact hnone

end Sys2Proof.Machine
end

section
/-! PROOFS. The effects of the jumps, of halt and of nop: the pc or RUN, and nothing else (48_control_transfer.md R190
to R196, 49_stack_memory_misc.md R204, R205). -/

namespace Sys2Proof.Machine

/-- The result and the frame of a jump whose function code tests `c`. -/
theorem result_of_jumpIf {i : Instr} {s : State} {fn : Nibble} {v p : Word} {c : Bool}
    (hc : Machine.cond s.cc fn = c) (hexec : exec i s = .next (jumpIf fn v p s)) :
    ∃ t, exec i s = .next t ∧ t.pc = (if c = true then v else p) ∧
      (∀ id, t.readReg id = s.readReg id) ∧ t.cc = s.cc ∧ (∀ x, t.mem.read x = s.mem.read x) ∧ t.run = s.run ∧
      latchesKept s t := by
  subst hc
  rw [jumpIf_eq] at hexec
  obtain ⟨t, ht, hread, hpc, hframe⟩ := result_of_regs_pc hexec fun _ => rfl
  exact ⟨t, ht, hpc, hread, hframe⟩

/-- Settles O15: each of the seven is a `jumpIf` with its own function code, whose test is a row of `conditionTests`. -/
theorem jumpResults : Obligations.JumpResults := by
  intro s v
  obtain ⟨halways, hle, hl, he, hne, hge, hg⟩ := conditionTests.1 s.cc
  simp only [List.forall_mem_cons]
  exact ⟨result_of_jumpIf (p := s.pc + 9) halways rfl, result_of_jumpIf hle rfl, result_of_jumpIf hl rfl,
    result_of_jumpIf he rfl, result_of_jumpIf hne rfl, result_of_jumpIf hge rfl, result_of_jumpIf hg rfl,
    List.forall_mem_nil _⟩

/-- Settles O22: halt retires with HLT, and nop moves the pc past its one byte. -/
theorem haltAndNopResults : Obligations.HaltAndNopResults := by
  intro s
  refine ⟨?halt, ?nop⟩
  case halt =>
    obtain ⟨hcc, hmem, hlatches⟩ :=
      frame_of_regs_run_F (s := s) (r := s.regs) (run := .stopped .HLT) (f := s.F) rfl
    exact ⟨_, rfl, rfl, fun _ => rfl, hcc, hmem, rfl, hlatches⟩
  case nop =>
    obtain ⟨t, ht, hread, hpc, hframe⟩ :=
      result_of_regs_pc (i := .nop) (s := s) (r := s.regs) (p := s.pc + 1) rfl fun _ => rfl
    exact ⟨t, ht, hpc, hread, hframe⟩

end Sys2Proof.Machine
end

section
/-! PROOFS. A data access inside memory, in the sequential effects of the six instructions that make one
(48_control_transfer.md R197, R198, 49_stack_memory_misc.md R200 to R203). -/

namespace Sys2Proof.Machine

/-! ### The access succeeds (R55, R175 item 4) -/

/-- A store inside memory only writes its word. -/
theorem State.store_of_valid {s : State} {a : Word} (h : a.toNat + 8 ≤ s.memCapacity) (v : Word) :
    s.store a v = { s with mem := s.mem.writeWord a.toNat v } := by
  rcases s.store_cases a v with ⟨_, hstore⟩ | ⟨hinvalid, _⟩
  · exact hstore
  · omega

/-- A load inside memory has status AOK. -/
theorem State.loadStat_of_valid {s : State} {a : Word} (h : a.toNat + 8 ≤ s.memCapacity) : s.loadStat a = .AOK := by
  rw [State.loadStat, State.memRead_of_valid h]
  rfl

/-! ### The whole effect of each instruction then -/

section effect

variable {s : State}

/-- call: the address after it is pushed, and the pc is its constant (R197). -/
theorem exec_call_of_valid (h : s.pushAddr.toNat + 8 ≤ s.memCapacity) (v : Word) :
    exec (.call v) s = .next
      { s with
        mem := s.mem.writeWord s.pushAddr.toNat (s.pc + 9)
        regs := s.regs.write RRSP s.pushAddr
        F := { predPC := v } } := by
  rw [exec, execCall, State.store_of_valid h]
  rfl

/-- pushq: the source is pushed as it was before %rsp goes down (R200). -/
theorem exec_pushq_of_valid (h : s.pushAddr.toNat + 8 ≤ s.memCapacity) (rA unused : RegId) :
    exec (.pushq rA unused) s = .next
      { s with
        mem := s.mem.writeWord s.pushAddr.toNat (s.readReg rA)
        regs := s.regs.write RRSP s.pushAddr
        F := { predPC := s.pc + 2 } } := by
  rw [exec, execPushq, State.store_of_valid h]
  rfl

/-- rmmovq: no register is written (R202). -/
theorem exec_rmmovq_of_valid {rB : RegId} {v : Word} (h : (s.effectiveAddr rB v).toNat + 8 ≤ s.memCapacity)
    (rA : RegId) :
    exec (.rmmovq rA rB v) s = .next
      { s with
        mem := s.mem.writeWord (s.effectiveAddr rB v).toNat (s.readReg rA)
        regs := s.regs
        F := { predPC := s.pc + 10 } } := by
  rw [exec, execRmmovq, State.store_of_valid h]
  rfl

/-- ret: the pc is the word popped (R198). -/
theorem exec_ret_of_valid (h : s.popAddr.toNat + 8 ≤ s.memCapacity) :
    exec .ret s = .next
      { s with
        regs := s.regs.write RRSP (s.popAddr + 8)
        F := { predPC := s.mem.readWord s.popAddr.toNat } } := by
  rw [exec, execRet, State.memRead_of_valid h, State.loadStat_of_valid h]
  rfl

/-- popq: %rsp goes up before the destination gets the word popped (R201). -/
theorem exec_popq_of_valid (h : s.popAddr.toNat + 8 ≤ s.memCapacity) (rA unused : RegId) :
    exec (.popq rA unused) s = .next
      { s with
        regs := (s.regs.write RRSP (s.popAddr + 8)).write rA (s.mem.readWord s.popAddr.toNat)
        F := { predPC := s.pc + 2 } } := by
  rw [exec, execPopq, State.memRead_of_valid h, State.loadStat_of_valid h]
  rfl

/-- mrmovq: the destination gets the word read (R203). -/
theorem exec_mrmovq_of_valid {rB : RegId} {v : Word} (h : (s.effectiveAddr rB v).toNat + 8 ≤ s.memCapacity)
    (rA : RegId) :
    exec (.mrmovq rA rB v) s = .next
      { s with
        regs := s.regs.write rA (s.mem.readWord (s.effectiveAddr rB v).toNat)
        F := { predPC := s.pc + 10 } } := by
  rw [exec, execMrmovq, State.memRead_of_valid h, State.loadStat_of_valid h]
  rfl

end effect

/-! ### The results (R197 to R203) -/

/-- The result and the frame of an instruction that stores a word and writes registers and the pc, the register file it
leaves being known by its reads. -/
theorem result_of_store {i : Instr} {s : State} {a : Nat} {w : Word} {r : RegFile} {p : Word} {value : RegId → Word}
    (hwf : s.mem.wf)
    (hexec : exec i s = .next { s with mem := s.mem.writeWord a w, regs := r, F := { predPC := p } })
    (hread : ∀ id, RegFile.read r id = value id) :
    ∃ t, exec i s = .next t ∧
      (∀ x, t.mem.read x = if a ≤ x ∧ x < a + 8 then wordByte w (x - a) else s.mem.read x) ∧
      (∀ id, t.readReg id = value id) ∧ t.pc = p ∧ t.cc = s.cc ∧ t.run = s.run ∧ latchesKept s t :=
  ⟨_, hexec, Memory.read_writeWord hwf a w, hread, rfl, rfl, rfl, rfl, rfl, rfl, rfl, rfl⟩

/-- Settles O16: a store at the slot below %rsp, and a write of %rsp. -/
theorem callResult : Obligations.CallResult := fun s v hwf h =>
  result_of_store hwf (exec_call_of_valid h v) fun id => s.readReg_writeReg_RRSP id s.pushAddr

/-- Settles O18: as for O16, with the source register for the word stored. -/
theorem pushqResult : Obligations.PushqResult := fun s rA unused hwf h =>
  result_of_store hwf (exec_pushq_of_valid h rA unused) fun id => s.readReg_writeReg_RRSP id s.pushAddr

/-- Settles O20: a store at the effective address; the register file is the one before. -/
theorem rmmovqResult : Obligations.RmmovqResult := fun _ rA _ _ hwf h =>
  result_of_store hwf (exec_rmmovq_of_valid h rA) fun _ => rfl

/-- Settles O17: a write of %rsp, and the word popped for the pc. -/
theorem retResult : Obligations.RetResult := by
  intro s h
  obtain ⟨t, ht, hread, hpc, hframe⟩ :=
    result_of_regs_pc (exec_ret_of_valid h) fun id => s.readReg_writeReg_RRSP id (s.popAddr + 8)
  exact ⟨t, ht, hpc, hread, hframe⟩

/-- Settles O19: a write of %rsp and then of the destination, read back by `State.readReg_popped`. -/
theorem popqResult : Obligations.PopqResult := fun s rA unused h =>
  result_of_regs_pc (exec_popq_of_valid h rA unused) (s.readReg_popped (s.popAddr + 8) _ rA)

/-- Settles O21: a write of the destination. -/
theorem mrmovqResult : Obligations.MrmovqResult := fun s rA _ _ h =>
  result_of_regs_pc (exec_mrmovq_of_valid h rA) fun id => s.readReg_writeReg rA id _

end Sys2Proof.Machine
end

section
/-! PROOFS. The image the loader builds, line by line (70_reset_and_hazards.md R232, R234). -/

namespace Sys2Proof.Machine

/-- A string write leaves every byte outside the string as it was (R52). -/
theorem Memory.read_writeBytes_of_outside {m : Memory} (hwf : m.wf) {a x : Nat} {bs : List Byte}
    (h : ¬(a ≤ x ∧ x < a + bs.length)) : Memory.read (Memory.writeBytes m a bs) x = Memory.read m x := by
  rw [Memory.read_writeBytes hwf]
  split
  · rw [List.getElem?_eq_none (by omega), Option.getD_none]
  · rfl

/-- A string write leaves its own bytes in the order written (R232). -/
theorem Memory.read_writeBytes_of_inside {m : Memory} (hwf : m.wf) (a : Nat) {bs : List Byte} {k : Nat}
    (h : k < bs.length) : Memory.read (Memory.writeBytes m a bs) (a + k) = bs[k] := by
  rw [Memory.read_writeBytes hwf, if_pos (Nat.le_add_right a k), Nat.add_sub_cancel_left, List.getElem?_eq_getElem h,
    Option.getD_some]

/-- The addresses a data line gives bytes for (R232). -/
def DataLine.covers (d : DataLine) (a : Nat) : Prop := d.address ≤ a ∧ a < d.address + d.bytes.length

section load

variable {capacity line free : Nat} {image result : Memory} {lines : List (Option DataLine)}

/-- A data line is loaded if it starts past the earlier ones and ends below the capacity, and the rest is loaded after
it (R234). -/
theorem loadLines_some_eq_ok_iff {d : DataLine} :
    loadLines capacity line free image (some d :: lines) = .ok result ↔
      free ≤ d.address ∧ d.address + d.bytes.length ≤ capacity ∧
        loadLines capacity (line + 1) (d.address + d.bytes.length) (image.writeBytes d.address d.bytes) lines =
          .ok result := by
  rw [loadLines]
  split_ifs with horder hfits
  · simp [Nat.not_le.2 horder]
  · simp [Nat.not_le.2 hfits]
  · rw [and_iff_right (Nat.not_lt.1 horder), and_iff_right (Nat.not_lt.1 hfits)]

/-- Loading keeps the canonical form, and writes below the capacity only. -/
theorem loadLines_legal (h : loadLines capacity line free image lines = .ok result) (hwf : image.wf)
    (hbound : ∀ c ∈ image, c.1 < capacity) : result.wf ∧ ∀ c ∈ result, c.1 < capacity := by
  induction lines generalizing line free image with
  | nil =>
    cases h
    exact ⟨hwf, hbound⟩
  | cons entry lines ih =>
    cases entry with
    | none => exact ih h hwf hbound
    | some d =>
      obtain ⟨-, hfits, hrest⟩ := loadLines_some_eq_ok_iff.1 h
      refine ih hrest (Memory.wf_writeBytes hwf _ _) fun c hc => ?_
      rcases Memory.mem_writeBytes hc with hold | ⟨-, hnew⟩
      · exact hbound c hold
      · omega

/-- Every line starts past the earlier ones (R234). -/
theorem free_le_address_of_loadLines (h : loadLines capacity line free image lines = .ok result) {d : DataLine}
    (hd : some d ∈ lines) : free ≤ d.address := by
  induction lines generalizing line free image with
  | nil => exact absurd hd List.not_mem_nil
  | cons entry lines ih =>
    cases entry with
    | none => exact ih h (by simpa using hd)
    | some first =>
      obtain ⟨hfree, -, hrest⟩ := loadLines_some_eq_ok_iff.1 h
      rcases List.mem_cons.1 hd with heq | hlater
      · cases heq
        exact hfree
      · have := ih hrest hlater
        omega

/-- An address no line covers is left as it was. -/
theorem read_of_loadLines_of_uncovered (h : loadLines capacity line free image lines = .ok result) (hwf : image.wf)
    {a : Nat} (ha : ∀ d, some d ∈ lines → ¬d.covers a) : result.read a = image.read a := by
  induction lines generalizing line free image with
  | nil =>
    cases h
    rfl
  | cons entry lines ih =>
    have hlater : ∀ d, some d ∈ lines → ¬d.covers a := fun d hd => ha d (List.mem_cons_of_mem _ hd)
    cases entry with
    | none => exact ih h hwf hlater
    | some d =>
      obtain ⟨-, -, hrest⟩ := loadLines_some_eq_ok_iff.1 h
      rw [ih hrest (Memory.wf_writeBytes hwf _ _) hlater]
      exact Memory.read_writeBytes_of_outside hwf (ha d List.mem_cons_self)

/-- The bytes of each line stand where it places them: the lines after it start past its end. -/
theorem read_of_loadLines_of_mem (h : loadLines capacity line free image lines = .ok result) (hwf : image.wf)
    {d : DataLine} (hd : some d ∈ lines) {k : Nat} (hk : k < d.bytes.length) :
    result.read (d.address + k) = d.bytes[k] := by
  induction lines generalizing line free image with
  | nil => exact absurd hd List.not_mem_nil
  | cons entry lines ih =>
    cases entry with
    | none => exact ih h hwf (by simpa using hd)
    | some first =>
      obtain ⟨-, -, hrest⟩ := loadLines_some_eq_ok_iff.1 h
      have hwf' : (image.writeBytes first.address first.bytes).wf := Memory.wf_writeBytes hwf _ _
      rcases List.mem_cons.1 hd with heq | hlater
      · cases heq
        rw [read_of_loadLines_of_uncovered hrest hwf' fun later hlater hcovers => ?past]
        · exact Memory.read_writeBytes_of_inside hwf d.address hk
        case past =>
          obtain ⟨hstart, -⟩ := hcovers
          have := free_le_address_of_loadLines hrest hlater
          omega
      · exact ih hrest hwf' hlater

end load

/-- Settles O55: loading starts from the empty image, which is canonical and reads 0 everywhere. -/
theorem loadedImage : Obligations.LoadedImage := fun _ _ _ h =>
  ⟨loadLines_legal h Memory.wf_nil (List.forall_mem_nil _),
    fun _ hd _ hk => read_of_loadLines_of_mem h Memory.wf_nil hd hk,
    fun a ha => (read_of_loadLines_of_uncovered h Memory.wf_nil ha).trans (Memory.read_nil a)⟩

end Sys2Proof.Machine
end

section
/-! PROOFS. What the stores in flight can change of a fetch: the bytes of the instruction it reads, and no others
(40_pipeline_cycle.md R100, 41_fetch.md R104 to R109, 70_reset_and_hazards.md R240; log entries 6, 11, 13). -/

namespace Sys2Proof.Machine

/-! ### Fetch depends on no byte past the instruction (R104 to R106) -/

/-- What Fetch reads as an instruction are that instruction's bytes, all of them at valid addresses. -/
theorem instrAt_of_fetchInstr_eq_ok {s : State} {pc : Word} {i : Instr} {rest : List Byte}
    (h : fetchInstr s pc = .ok i rest) : instrAt s pc i := by
  have hwindow : fetchWindow s pc = encode i ++ rest := decodeReadsOnlyEncodings _ _ _ h
  have hlength := congrArg List.length hwindow
  rw [List.length_append, length_encode, fetchWindow, Memory.length_readBytes] at hlength
  have hpos := i.length_bounds.1
  refine ⟨by omega, ?_⟩
  rw [fetchWindow, hlength, Memory.readBytes_add] at hwindow
  exact (List.append_inj hwindow (by rw [Memory.length_readBytes, length_encode])).1

theorem instrAt_congr {s t : State} {pc : Word} {i : Instr} (hc : t.memCapacity = s.memCapacity)
    (h : ∀ x, pc.toNat ≤ x → x < pc.toNat + i.length → t.mem.read x = s.mem.read x) (hat : instrAt s pc i) :
    instrAt t pc i := by
  obtain ⟨hfits, hbytes⟩ := hat
  exact ⟨hc ▸ hfits, (Memory.readBytes_congr h).trans hbytes⟩

/-- The length a fetched `valP` is ahead of the pc by (R109). -/
theorem toNat_valP_sub (pc : Word) {n : Nat} (h : n ≤ Config.maxInstrBytes) :
    (pc + BitVec.ofNat 64 n - pc).toNat = n := by
  have hsmall : n < 2 ^ 64 := h.trans_lt (by decide)
  rw [add_sub_cancel_left, BitVec.toNat_ofNat, Nat.mod_eq_of_lt hsmall]

section slots

variable {s : State} {pc : Word}

theorem fetchSlot_of_outside (h : s.memCapacity ≤ pc.toNat) : fetchSlot s pc = errorSlot .ADR pc 1 := by
  rw [fetchSlot, fetchInstr_of_outside h]

theorem fetchSlot_of_invalid (h : pc.toNat < s.memCapacity) (hinv : ∀ i : Instr, i.byte0 ≠ s.mem.read pc.toNat) :
    fetchSlot s pc = errorSlot .INS pc 1 := by
  rw [fetchSlot, fetchInstr_of_invalid h hinv]

theorem fetchSlot_of_cut {i : Instr} (h : pc.toNat < s.memCapacity) (hi : i.byte0 = s.mem.read pc.toNat)
    (hcut : s.memCapacity < pc.toNat + i.length) : fetchSlot s pc = errorSlot .ADR pc i.length := by
  rw [fetchSlot, fetchInstr_of_cut h hi hcut]

/-- Two memories agree on the bytes from the pc up to the `valP` that Fetch delivers from the first. -/
def AgreeOnFetch (s t : State) (pc : Word) : Prop :=
  ∀ x, pc.toNat ≤ x → x < pc.toNat + ((fetchSlot s pc).valP - pc).toNat → t.mem.read x = s.mem.read x

/-- How many bytes those are, for a slot of length `n` (R109). -/
theorem AgreeOnFetch.read_eq {t : State} (h : AgreeOnFetch s t pc) {n : Nat} (hn : n ≤ Config.maxInstrBytes)
    (hvalP : (fetchSlot s pc).valP = pc + BitVec.ofNat 64 n) (x : Nat) (hlow : pc.toNat ≤ x)
    (hhigh : x < pc.toNat + n) : t.mem.read x = s.mem.read x := by
  refine h x hlow ?_
  rwa [hvalP, toNat_valP_sub pc hn]

/-- Fetch then delivers the same from both: by the four things it can find at the pc. -/
theorem AgreeOnFetch.fetchSlot_eq {t : State} (h : AgreeOnFetch s t pc) (hc : t.memCapacity = s.memCapacity) :
    fetchSlot t pc = fetchSlot s pc := by
  by_cases hinside : pc.toNat < s.memCapacity
  case neg =>
    have houtside := Nat.not_lt.1 hinside
    rw [fetchSlot_of_outside houtside, fetchSlot_of_outside (hc.symm ▸ houtside)]
  by_cases hvalid : ∃ i : Instr, i.byte0 = s.mem.read pc.toNat
  case neg =>
    have hinv : ∀ i : Instr, i.byte0 ≠ s.mem.read pc.toNat := not_exists.1 hvalid
    have hs := fetchSlot_of_invalid hinside hinv
    have hfirst := h.read_eq (n := 1) (by decide) (by rw [hs]; rfl) pc.toNat le_rfl (by omega)
    rw [hs, fetchSlot_of_invalid (s := t) (hc.symm ▸ hinside) (hfirst.symm ▸ hinv)]
  obtain ⟨i, hi⟩ := hvalid
  obtain ⟨hpos, hmax⟩ := i.length_bounds
  by_cases hwhole : pc.toNat + i.length ≤ s.memCapacity
  case neg =>
    have hcut := Nat.not_le.1 hwhole
    have hs := fetchSlot_of_cut hinside hi hcut
    have hfirst := h.read_eq hmax (by rw [hs]; rfl) pc.toNat le_rfl (by omega)
    rw [hs, fetchSlot_of_cut (s := t) (hc.symm ▸ hinside) (hi.trans hfirst.symm) (hc.symm ▸ hcut)]
  case pos =>
    obtain ⟨j, rest, hj, -⟩ := fetchInstr_of_whole hi hwhole
    have hat := instrAt_of_fetchInstr_eq_ok hj
    have hs := fetchSlot_of_instrAt hat
    have hbytes := h.read_eq j.length_bounds.2 (by rw [hs]; rfl)
    rw [hs, fetchSlot_of_instrAt (instrAt_congr hc hbytes hat)]

end slots

/-! ### The memory once the instructions in flight have completed (log entry 6) -/

theorem State.andThen_memCapacity {f : State → State} (hf : ∀ a, (f a).memCapacity = a.memCapacity) (a : State) :
    (a.andThen f).memCapacity = a.memCapacity :=
  State.andThen_property (P := fun b => b.memCapacity = a.memCapacity) rfl (hf a)

@[simp] theorem State.atStop_memCapacity (a : State) : a.atStop.memCapacity = a.memCapacity := by
  unfold State.atStop
  split <;> rfl

theorem settle_memCapacity (s : State) : (settle s).memCapacity = s.memCapacity := by
  have hE : (((s.drained.andThen (finishW s.W)).andThen (finishM s.M)).andThen (finishE s.E)).memCapacity =
      s.memCapacity := by
    rw [State.andThen_memCapacity (f := finishE s.E) fun _ => rfl,
      State.andThen_memCapacity (f := finishM s.M) fun _ => rfl,
      State.andThen_memCapacity (f := finishW s.W) fun _ => rfl, State.drained_memCapacity]
  rw [settle, State.atStop_memCapacity]
  split
  · exact hE
  · rw [State.andThen_memCapacity (finishD_memCapacity s.D), hE]

/-- What holds of the memory, and is kept by the Memory stage of each of the three instructions that can still store,
holds of the memory of the architectural state. -/
theorem settle_mem_property {P : Memory → Prop} {s : State} (hs : P s.mem)
    (hstages : ∀ m ∈ memoryStages s, ∀ a : State, P a.mem → P (mMem m a)) : P (settle s).mem := by
  simp only [memoryStages, List.forall_mem_cons] at hstages
  obtain ⟨hM, hE, hD, -⟩ := hstages
  have hafterW := State.andThen_property (P := (P ·.mem)) (a := s.drained) (f := finishW s.W) hs hs
  have hafterM := State.andThen_property (P := (P ·.mem)) (f := finishM s.M) hafterW (hM _ hafterW)
  have hafterE := State.andThen_property (P := (P ·.mem)) (f := finishE s.E) hafterM (hE (State.setCC _ _) hafterM)
  rw [settle, State.atStop_mem]
  split
  · exact hafterE
  · exact State.andThen_property (P := (P ·.mem)) hafterE (hD (State.setCC _ _) hafterE)

/-- Settles O52: the memory stages keep the bytes Fetch reads (`mMem_frame`), and Fetch depends on no others
(`AgreeOnFetch.fetchSlot_eq`); without a store they keep the whole memory. -/
theorem noStoreInFlightIsFresh : Obligations.NoStoreInFlightIsFresh := by
  refine ⟨fun s hwf hstores => ?elsewhere, fun s hD hE hM => ?none⟩
  case elsewhere =>
    have hagree : (settle s).mem.wf ∧ AgreeOnFetch s (settle s) (fetchPC s) := by
      refine settle_mem_property (P := fun mem => mem.wf ∧ AgreeOnFetch s { s with mem := mem } (fetchPC s))
        ⟨hwf, fun _ _ _ => rfl⟩ fun m hm a ⟨hawf, hread⟩ => ?_
      obtain ⟨hwf', hframe⟩ := mMem_frame (m := m) hawf
      exact ⟨hwf', fun x hlow hhigh => (hframe x (hstores m hm x hlow hhigh)).trans (hread x hlow hhigh)⟩
    exact hagree.2.fetchSlot_eq (settle_memCapacity s)
  case none =>
    have hkept {m : LatchM} (hm : isStore m.icode = false) (a : State) (ha : a.mem = s.mem) : mMem m a = s.mem :=
      (mMem_of_not_isStore hm a).trans ha
    refine fetchSlot_congr (settle_mem_property (P := (· = s.mem)) rfl ?_) (settle_memCapacity s) _
    simp only [memoryStages, List.forall_mem_cons]
    exact ⟨hkept hM, hkept hE, hkept hD, List.forall_mem_nil _⟩

end Sys2Proof.Machine
end
